-- ==== Sys2Proof/Word.lean ====
section
/-! DEFINITION. The words of the block: every register is 32 bits wide, a buffer element is a byte, and the host
port carries a 14-bit byte offset (00_scope.md R8). -/

namespace Sys2Proof

/-- A register, a command word or the 32-bit data path of the host port (R8). -/
abbrev Word := BitVec 32

/-- One buffer element, 8 bits (R9). -/
abbrev Byte := BitVec 8

/-- A byte offset in the host window, 0x0000 to 0x3FFF (R8, 20_memory.md R50). -/
abbrev Offset := BitVec 14

end Sys2Proof
end

