-- ==== Sys2Proof/Config.lean ====
section
/-! DEFINITION. What is fixed for one block (operation kinds, variants, the named parameters) and the free values:
constants without a body, of which nothing in Lean can compute or prove a value. -/

namespace Sys2Proof

/-- The two directions of a command: the OP field of 30_encoding.md R81, and LC.op of 10_state.md R40. -/
inductive Op where
  | enc
  | dec
  deriving DecidableEq, Repr, Inhabited

/-- The five encoding variants, in the order of their numbers 0 to 4 (30_encoding.md R82). -/
inductive Variant where
  | b64
  | b64url
  | b32
  | b32hex
  | b16
  deriving DecidableEq, Repr, Inhabited

/-- The two sizes an instance of the block fixes (00_scope.md R7): P_IBUF_BYTES and P_OBUF_BYTES.
P_LATENCY and P_BUS_PROTOCOL have no effect a step can show (log entries 1 and 9). -/
structure Params where
  ibufBytes : Nat
  obufBytes : Nat
  deriving DecidableEq, Repr

/-- The defaults of 00_scope.md R7. -/
def Params.default : Params := { ibufBytes := 4096, obufBytes := 8192 }

/-- What IBUF[i] holds after the reset with number `resets` until a write reaches it (70_reset_and_hazards.md R233;
93_implementation_defined.md I1: one draw for each byte, made at reset and then stable). Free value, log entry 6. -/
opaque Config.unwrittenIbuf : (resets : Nat) → (i : Nat) → Byte

/-- The same for OBUF[j] (R233, I1). Free value, log entry 6. -/
opaque Config.unwrittenObuf : (resets : Nat) → (j : Nat) → Byte

/-- What OBUF[j] holds after an InvalidCharacter completion at time `tick`, for j below DecBound
(60_exceptions.md R205). Free value, log entry 8. -/
opaque Config.spoiledObuf : (tick : Nat) → (j : Nat) → Byte

/-- LC.op after a Reset step at time `tick` (10_state.md R40). Free value, log entry 5. -/
opaque Config.resetOp : (tick : Nat) → Op

/-- LC.var after a Reset step at time `tick` (R40). Free value, log entry 5. -/
opaque Config.resetVariant : (tick : Nat) → Variant

/-- LC.len after a Reset step at time `tick` (R40). Free value, log entry 5. -/
opaque Config.resetLen : (tick : Nat) → Word

/-- What the host gets back from a transaction in flight when reset is asserted at time `tick`: nothing, or some
data and some bus-error flag (70_reset_and_hazards.md R235). Free value, log entry 10. -/
opaque Config.tornReply : (tick : Nat) → Option (Word × Bool)

end Sys2Proof
end

