-- ==== Sys2Proof/Machine/Bus.lean ====
section
/-! DEFINITION. The outside of the block: the host's transactions and their replies, the registers' names, and the
events that move the machine (00_scope.md R11, R12; 10_state.md R20). -/

namespace Sys2Proof.Machine

/-- A host transaction (00_scope.md R11): MemRead(off, n) or MemWrite(off, n, v). A size n other than 1, 2 or 4 can
be written down and gets a bus error (20_memory.md R55, R56). Of v only the low n bytes matter (log entry 13). -/
inductive Transaction where
  | read (off : Offset) (n : Nat)
  | write (off : Offset) (n : Nat) (v : Word)
  deriving DecidableEq, Repr

/-- What a transaction returns: MemRead the data and the bus-error flag (R55), MemWrite the flag (R56). -/
inductive Reply where
  | read (data : Word) (busErr : Bool)
  | write (busErr : Bool)
  deriving DecidableEq, Repr

/-- One entry of the order in which the agents move (R12, 20_memory.md R66): a host transaction, a turn of the
Engine, a reset, or a reset asserted while a transaction is in flight (70_reset_and_hazards.md R230, R235). -/
inductive Event where
  | host (t : Transaction)
  | engine
  | reset
  | resetDuring (t : Transaction)
  deriving DecidableEq, Repr

/-- The registers of 10_state.md R20. -/
inductive Reg where
  | id
  | version
  | cmd
  | inLen
  | outLen
  | status
  | irqEn
  | errPos
  | ibufSize
  | obufSize
  deriving DecidableEq, Repr

/-- Where a host access goes, once its size, alignment, range and BUSY have been checked (20_memory.md R55, R56):
a register offset, a first index into IBUF or OBUF, or nowhere. -/
inductive Target where
  | register (off : Nat)
  | ibuf (i : Nat)
  | obuf (j : Nat)
  | busError
  deriving DecidableEq, Repr

end Sys2Proof.Machine
end

