-- ==== Sys2Proof/Syntax.lean ====
section
/-! DEFINITION. The ten commands of 30_encoding.md R84, one constructor for each row of the opcode table. A command
has no operand field: its operands are implicit (R83). -/

namespace Sys2Proof

/-- A command, in the order of its CMD value 0x0 to 0x9 (R84). -/
inductive Instr where
  | encB64
  | decB64
  | encB64url
  | decB64url
  | encB32
  | decB32
  | encB32hex
  | decB32hex
  | encB16
  | decB16
  deriving DecidableEq, Repr, Inhabited

end Sys2Proof
end

