-- ==== Sys2Proof/WellFormed.lean ====
section
/-! DEFINITION. Well-formedness. A command has no operand field (30_encoding.md R83), so every term of Instr is
well-formed; what can be ill-formed is a parameter pair (00_scope.md R7) and a transaction (00_scope.md R11). -/

namespace Sys2Proof

/-- A command carries no operand (R83), so there is nothing to check. -/
abbrev Instr.wf (_ : Instr) : Prop := True

/-- ceil(a/b) on naturals (00_scope.md R9). -/
def ceilDiv (a b : Nat) : Nat := (a + b - 1) / b

/-- OutMax(n), the longest encoder output for n input bytes over all variants (00_scope.md R7). -/
def outMax (n : Nat) : Nat := max (2 * n) (max (8 * ceilDiv n 5) (4 * ceilDiv n 3))

/-- The constraints of 00_scope.md R7: 1 ≤ P_IBUF_BYTES ≤ 4096 and OutMax(P_IBUF_BYTES) ≤ P_OBUF_BYTES ≤ 8192. -/
abbrev Params.wf (p : Params) : Prop :=
  1 ≤ p.ibufBytes ∧ p.ibufBytes ≤ 4096 ∧ outMax p.ibufBytes ≤ p.obufBytes ∧ p.obufBytes ≤ 8192

/-- A transaction as R11 writes it: n ∈ {1, 2, 4}, and a written value of n bytes. The machine answers every other
one as well (log entry 13). -/
abbrev Machine.Transaction.wf : Machine.Transaction → Bool
  | .read _ n => n == 1 || n == 2 || n == 4
  | .write _ n v => (n == 1 || n == 2 || n == 4) && decide (v.toNat < 2 ^ (8 * n))

end Sys2Proof
end

