-- ==== Sys2Proof/Decode.lean ====
section
/-! DEFINITION. The decoder of command words (30_encoding.md R80 to R85), total and rejecting by name, and the encoder
written from the CMD column of R84. -/

namespace Sys2Proof

/-- Why bytes are no command (R85): CMD[31:4] ≠ 0, or VARIANT 5, 6 or 7; or fewer than the four bytes of the one
format CMD32 (R80). -/
inductive DecodeError where
  | reservedBits
  | reservedVariant
  | truncated
  deriving DecidableEq, Repr

/-- OP = CMD[0]: 0 is ENC, 1 is DEC (R81). -/
def opOfBit (b : Bool) : Op := if b then .dec else .enc

/-- VARIANT = CMD[3:1]; 5, 6 and 7 are reserved (R82). -/
def variantOfBits (b : BitVec 3) : Option Variant :=
  if b = 0 then some .b64
  else if b = 1 then some .b64url
  else if b = 2 then some .b32
  else if b = 3 then some .b32hex
  else if b = 4 then some .b16
  else none

/-- The command of an operation and a variant: row 2*VARIANT + OP of R84. -/
def Instr.ofFields : Op → Variant → Instr
  | .enc, .b64 => .encB64
  | .dec, .b64 => .decB64
  | .enc, .b64url => .encB64url
  | .dec, .b64url => .decB64url
  | .enc, .b32 => .encB32
  | .dec, .b32 => .decB32
  | .enc, .b32hex => .encB32hex
  | .dec, .b32hex => .decB32hex
  | .enc, .b16 => .encB16
  | .dec, .b16 => .decB16

/-- The operation a command names (the OP column of R84). -/
def Instr.op : Instr → Op
  | .encB64 | .encB64url | .encB32 | .encB32hex | .encB16 => .enc
  | .decB64 | .decB64url | .decB32 | .decB32hex | .decB16 => .dec

/-- The variant a command names (the VARIANT column of R84). -/
def Instr.variant : Instr → Variant
  | .encB64 | .decB64 => .b64
  | .encB64url | .decB64url => .b64url
  | .encB32 | .decB32 => .b32
  | .encB32hex | .decB32hex => .b32hex
  | .encB16 | .decB16 => .b16

/-- The decode function of R84: OP := CMD[0], VARIANT := CMD[3:1], a command when CMD[31:4] = 0 and VARIANT ≤ 4. -/
def decode (w : Word) : Except DecodeError Instr :=
  if w.extractLsb' 4 28 ≠ 0 then .error .reservedBits
  else
    match variantOfBits (w.extractLsb' 1 3) with
    | none => .error .reservedVariant
    | some v => .ok (Instr.ofFields (opOfBit (w.getLsbD 0)) v)

/-- The four bytes of a word at rising offsets of the host window, which is little-endian (20_memory.md R54). -/
def wordBytes (w : Word) : List Byte :=
  [w.extractLsb' 0 8, w.extractLsb' 8 8, w.extractLsb' 16 8, w.extractLsb' 24 8]

/-- The decoder on bytes: one 32-bit word (R80) in the window's byte order, and the bytes after it. -/
def decodeBytes : List Byte → Except DecodeError (Instr × List Byte)
  | b0 :: b1 :: b2 :: b3 :: rest =>
    match decode (b3 ++ b2 ++ b1 ++ b0) with
    | .ok i => .ok (i, rest)
    | .error e => .error e
  | _ => .error .truncated

/-- The assembled form of a command: its CMD value in R84 (R87). -/
def encode : Instr → Word
  | .encB64 => 0x00000000
  | .decB64 => 0x00000001
  | .encB64url => 0x00000002
  | .decB64url => 0x00000003
  | .encB32 => 0x00000004
  | .decB32 => 0x00000005
  | .encB32hex => 0x00000006
  | .decB32hex => 0x00000007
  | .encB16 => 0x00000008
  | .decB16 => 0x00000009

/-- The command that the decoder reads from a row's bits, numbered as the opcode table numbers them. A number that
needs more than 32 bits is no CMD32 word (R80). -/
def decodeTableWord (nbits w : Nat) : Option Instr :=
  if w % 2 ^ nbits < 2 ^ 32 then
    match decodeBytes (wordBytes (BitVec.ofNat 32 (w % 2 ^ nbits))) with
    | .ok (i, _) => some i
    | .error _ => none
  else none

end Sys2Proof
end

