-- ==== Sys2Proof/Machine/State.lean ====
section
/-! DEFINITION. The state of the block: the register file and flags of 10_state.md R20 to R33, the buffers of R37 and
R38, the latched command of R40, and the model's own fields (parameters, agenda, replies, tick, resets). -/

namespace Sys2Proof.Machine

/-- The bytes of a buffer that have been written, by index: strictly rising, and an index that is not listed has no
known value (log entry 7). -/
abbrev Memory := List Host.Cell

/-- The fields of STATUS (R26); bits 3 and 31:8 are RAZ/WI and hold nothing (R31). -/
structure Status where
  busy : Bool
  done : Bool
  ovr : Bool
  errCode : BitVec 4
  deriving DecidableEq, Repr

/-- LC, the latched command (R40): hidden, written at acceptance, read at completion. -/
structure Latch where
  op : Op
  variant : Variant
  len : Word
  deriving DecidableEq, Repr

/-- The error kinds that end a DEC command (60_exceptions.md R200), InvalidCharacter with the index of the first
invalid character. -/
inductive CodecError where
  | invalidLength
  | invalidPaddingCount
  | invalidCharacter (pos : Nat)
  deriving DecidableEq, Repr

/-- The block (10_state.md). `params`, `agenda`, `replies`, `tick` and `resets` are the model's own fields: the parameters
of this instance (00_scope.md R7), the events still to come (R12), what the host's transactions returned, newest first,
the counter of the steps and the number of resets, with which the free values are drawn (log entries 1, 4, 6, 8, 9). -/
structure State where
  params : Params
  inLen : Word
  outLen : Word
  status : Status
  doneIe : Bool
  errPos : Word
  lc : Latch
  ibuf : Memory
  obuf : Memory
  agenda : List Event
  replies : List Reply
  tick : Nat
  resets : Nat
  deriving DecidableEq, Repr

/-- Nothing in the spec stops the machine (93_implementation_defined.md: "No behaviour of this block is `stuck`"), so
there is no fault: a bus error is a reply and a codec error is a result code. -/
inductive Fault where
  deriving DecidableEq, Repr

/-- Why a command has no meaning. Raised by no arm of exec: every command is modelled. Safe. -/
inductive Refusal where
  /-- Raised by an arm of exec whose command has no meaning yet; safe, since the run stops. -/
  | notModelled (mnemonic : String)
  deriving DecidableEq, Repr

/-- STATUS after reset: 0x00000000 (R26). -/
def Status.reset : Status := { busy := false, done := false, ovr := false, errCode := 0 }

/-- ERR_POS where no InvalidCharacter is recorded: 0xFFFFFFFF (R33). -/
def noErrPos : Word := 0xFFFFFFFF

/-- The block right after reset (70_reset_and_hazards.md R231, R233) with the default parameters: no buffer byte has a
known value and no event is pending. The spec gives LC no reset value: DESIGN CHOICE (ENC, 0, 0), log entry 5. -/
def State.reset : State :=
  { params := Params.default
    inLen := 0
    outLen := 0
    status := Status.reset
    doneIe := false
    errPos := noErrPos
    lc := { op := .enc, variant := .b64, len := 0 }
    ibuf := []
    obuf := []
    agenda := []
    replies := []
    tick := 0
    resets := 0 }

end Sys2Proof.Machine
end

