-- ==== Sys2Proof/Machine/Operands.lean ====
section
/-! DEFINITION. The operands of a command and of a transaction: the constant table of each variant (00_scope.md R6),
the implicit input bytes (30_encoding.md R83), the command in LC, and the byte order of the host window (R54). -/

namespace Sys2Proof.Machine

/-- W, the bits of a symbol (R6). -/
def width : Variant → Nat
  | .b64 | .b64url => 6
  | .b32 | .b32hex => 5
  | .b16 => 4

/-- G_in, the bytes of a Byte Group (R6). -/
def gIn : Variant → Nat
  | .b64 | .b64url => 3
  | .b32 | .b32hex => 5
  | .b16 => 1

/-- G_out, the symbols of a Symbol Group (R6). -/
def gOut : Variant → Nat
  | .b64 | .b64url => 4
  | .b32 | .b32hex => 8
  | .b16 => 2

/-- PADMAX, the longest trailing padding run the validator accepts (R6, 42_decode.md R145). -/
def padMax : Variant → Nat
  | .b64 | .b64url => 2
  | .b32 | .b32hex => 6
  | .b16 => 0

/-- s(k), the symbols emitted for a final group of k bytes, 0 < k < G_in (R6, 41_encode.md R122). -/
def sigSymbols (v : Variant) (k : Nat) : Nat :=
  match v with
  | .b64 | .b64url => if k = 1 then 2 else 3
  | .b32 | .b32hex => if k = 1 then 2 else if k = 2 then 4 else if k = 3 then 5 else 7
  | .b16 => 2

/-- k(s), the bytes decoded from a final group of s symbols, none outside its domain (42_decode.md R143). -/
def tailBytes (v : Variant) (s : Nat) : Option Nat :=
  match v with
  | .b64 | .b64url => if s = 2 then some 1 else if s = 3 then some 2 else none
  | .b32 | .b32hex =>
    if s = 2 then some 1 else if s = 4 then some 2 else if s = 5 then some 3 else if s = 7 then some 4 else none
  | .b16 => none

/-- The padding character `=`, 0x3D (R6). -/
def padChar : Byte := 0x3D

/-- The byte that a list of written bytes holds at an index; none where no write reached it. -/
def Memory.get? : Memory → Nat → Option Byte
  | [], _ => none
  | (a, b) :: m, i => if a = i then some b else Memory.get? m i

/-- IBUF[i] as a read finds it (10_state.md R37): the byte written there, or else the draw made for it at the last reset
(70_reset_and_hazards.md R233, 93_implementation_defined.md I1; log entry 6). -/
def State.ibufByte (s : State) (i : Nat) : Byte :=
  (s.ibuf.get? i).getD (Config.unwrittenIbuf s.resets i)

/-- OBUF[j] as a read finds it (R38): the byte written there, or else the draw made for it at the last reset (R233,
I1; log entry 6). -/
def State.obufByte (s : State) (j : Nat) : Byte :=
  (s.obuf.get? j).getD (Config.unwrittenObuf s.resets j)

/-- The command in LC: the row 2*VARIANT + OP of 30_encoding.md R84. -/
def Latch.instr (l : Latch) : Instr := Instr.ofFields l.op l.variant

/-- The value of bytes at rising offsets: the first is bits 7:0 (20_memory.md R54). -/
def leValue : List Byte → Nat
  | [] => 0
  | b :: bs => b.toNat + 256 * leValue bs

/-- The low n bytes of a value, v[8b+7:8b] for b in 0..n−1 (R56). -/
def valueBytes (v : Word) (n : Nat) : List Byte :=
  (List.range n).map fun b => v.extractLsb' (8 * b) 8

end Sys2Proof.Machine
end

