-- ==== Sys2Proof/Machine/Alphabet.lean ====
section
/-! DEFINITION. The alphabet ROM (10_state.md R39, 40_alphabet.md): the five tables of R101 to R105, written as the
spec's own columns of sixteen (or eight) codes, the lookup `symbol_of` (R106) and its inverse `value_of` (R107). -/

namespace Sys2Proof.Machine

/-- Values 0 to 61 of ALPHA_0 and ALPHA_1 (R101, R102), in the columns of R101. -/
def alphaBase64Common : List Byte :=
  [0x41, 0x42, 0x43, 0x44, 0x45, 0x46, 0x47, 0x48, 0x49, 0x4A, 0x4B, 0x4C, 0x4D, 0x4E, 0x4F, 0x50]
    ++ [0x51, 0x52, 0x53, 0x54, 0x55, 0x56, 0x57, 0x58, 0x59, 0x5A, 0x61, 0x62, 0x63, 0x64, 0x65, 0x66]
    ++ [0x67, 0x68, 0x69, 0x6A, 0x6B, 0x6C, 0x6D, 0x6E, 0x6F, 0x70, 0x71, 0x72, 0x73, 0x74, 0x75, 0x76]
    ++ [0x77, 0x78, 0x79, 0x7A, 0x30, 0x31, 0x32, 0x33, 0x34, 0x35, 0x36, 0x37, 0x38, 0x39]

/-- ALPHA_v (R100): entry t is the code of the symbol for value t. -/
def alphabet : Variant → List Byte
  | .b64 => alphaBase64Common ++ [0x2B, 0x2F]
  | .b64url => alphaBase64Common ++ [0x2D, 0x5F]
  | .b32 =>
    [0x41, 0x42, 0x43, 0x44, 0x45, 0x46, 0x47, 0x48] ++ [0x49, 0x4A, 0x4B, 0x4C, 0x4D, 0x4E, 0x4F, 0x50]
      ++ [0x51, 0x52, 0x53, 0x54, 0x55, 0x56, 0x57, 0x58] ++ [0x59, 0x5A, 0x32, 0x33, 0x34, 0x35, 0x36, 0x37]
  | .b32hex =>
    [0x30, 0x31, 0x32, 0x33, 0x34, 0x35, 0x36, 0x37] ++ [0x38, 0x39, 0x41, 0x42, 0x43, 0x44, 0x45, 0x46]
      ++ [0x47, 0x48, 0x49, 0x4A, 0x4B, 0x4C, 0x4D, 0x4E] ++ [0x4F, 0x50, 0x51, 0x52, 0x53, 0x54, 0x55, 0x56]
  | .b16 => [0x30, 0x31, 0x32, 0x33, 0x34, 0x35, 0x36, 0x37] ++ [0x38, 0x39, 0x41, 0x42, 0x43, 0x44, 0x45, 0x46]

/-- `symbol_of`: ALPHA_v[t], defined for every W-bit value t (R106). No window of the packer is wider than W bits, so
the value outside the table is never used (log entry 14). -/
def symbolOf (v : Variant) (t : Nat) : Byte := (alphabet v).getD t 0

/-- The first index of a byte in a list, counted from `t`. -/
def indexFrom (c : Byte) (t : Nat) : List Byte → Option Nat
  | [] => none
  | x :: xs => if x = c then some t else indexFrom c (t + 1) xs

/-- `value_of`: VALUE_v(c), the t with ALPHA_v[t] = c, or NONE (R107). -/
def valueOf (v : Variant) (c : Byte) : Option Nat := indexFrom c 0 (alphabet v)

end Sys2Proof.Machine
end

