-- ==== Sys2Proof/Machine/Codec.lean ====
section
/-! DEFINITION. The codec: the bit packer EncodeCore (41_encode.md R120) and the format validator and bit unpacker
DecodeCore (42_decode.md R140), over unsigned naturals (00_scope.md R9, R16), for any function that gives the input
byte at an index. -/

namespace Sys2Proof.Machine

/-- x_0 ‖ x_1 ‖ … of W-bit values, x_0 most significant (R9). -/
def concatBits (w : Nat) (xs : List Nat) : Nat := xs.foldl (fun acc x => acc * 2 ^ w + x) 0

/-- The t-th w-bit window of a total-bit value, the first window most significant: V[total−1−t*w : total−(t+1)*w]. -/
def bitWindow (total w t V : Nat) : Nat := V / 2 ^ (total - (t + 1) * w) % 2 ^ w

/-- The 8*G_in-bit value of a Byte Group of k bytes; a missing byte is zero (R120). -/
def groupValue (v : Variant) (k : Nat) (b : Nat → Byte) : Nat :=
  concatBits 8 ((List.range (gIn v)).map fun j => if j < k then (b j).toNat else 0)

/-- The significant symbols of a Byte Group of k bytes: G_out, or s(k) for a partial one (R121, R122). -/
def groupSymbols (v : Variant) (k : Nat) : Nat := if k = gIn v then gOut v else sigSymbols v k

/-- The G_out characters of one Byte Group of k bytes: its symbols, then padding (R120). -/
def encodeGroup (v : Variant) (k : Nat) (b : Nat → Byte) : List Byte :=
  (List.range (groupSymbols v k)).map (fun t => symbolOf v (bitWindow (8 * gIn v) (width v) t (groupValue v k b)))
    ++ List.replicate (gOut v - groupSymbols v k) padChar

/-- EncodeCore(v, N) (R120). -/
def encodeCore (v : Variant) (n : Nat) (b : Nat → Byte) : List Byte :=
  (List.range (ceilDiv n (gIn v))).flatMap fun g =>
    encodeGroup v (min (gIn v) (n - g * gIn v)) fun j => b (g * gIn v + j)

/-- p, the length of the trailing run of `=` among the first l characters (42_decode.md R144). -/
def padRun (c : Nat → Byte) : Nat → Nat
  | 0 => 0
  | l + 1 => if c l = padChar then padRun c l + 1 else 0

/-- The lowest index below m whose character is outside the alphabet (R147). -/
def firstInvalid (v : Variant) (c : Nat → Byte) (m : Nat) : Option Nat :=
  (List.range m).find? fun i => (valueOf v (c i)).isNone

/-- The 8*G_in-bit value of a Symbol Group of s significant symbols; a stripped position is zero (R148). -/
def symbolsValue (v : Variant) (s : Nat) (c : Nat → Byte) : Nat :=
  concatBits (width v) ((List.range (gOut v)).map fun t => if t < s then (valueOf v (c t)).getD 0 else 0)

/-- The bytes a Symbol Group of s significant symbols gives: G_in, or k(s) for a short one (R143, R148). -/
def groupBytes (v : Variant) (s : Nat) : Nat := if s = gOut v then gIn v else (tailBytes v s).getD 0

/-- The bytes of one Symbol Group (R148). The bits below the last byte are discarded unchecked (R149). -/
def decodeGroup (v : Variant) (s : Nat) (c : Nat → Byte) : List Byte :=
  (List.range (groupBytes v s)).map fun j => BitVec.ofNat 8 (bitWindow (8 * gIn v) 8 j (symbolsValue v s c))

/-- The bytes of a text of l characters, p of them trailing padding, that passed every check (R148). -/
def unpack (v : Variant) (l p : Nat) (c : Nat → Byte) : List Byte :=
  (List.range (l / gOut v)).flatMap fun g =>
    decodeGroup v (if g = l / gOut v - 1 then gOut v - p else gOut v) fun t => c (g * gOut v + t)

/-- What DecodeCore returns (R140). -/
inductive DecodeResult where
  | ok (out : List Byte)
  | err (e : CodecError)
  deriving DecidableEq, Repr

/-- DecodeCore(v, L) (R140): the checks in the order of the rule, then the unpacker. -/
def decodeCore (v : Variant) (l : Nat) (c : Nat → Byte) : DecodeResult :=
  if l = 0 then .ok []
  else if l % gOut v ≠ 0 then .err .invalidLength
  else if padMax v < padRun c l then .err .invalidPaddingCount
  else if 0 < padRun c l ∧ tailBytes v (gOut v - padRun c l) = none then .err .invalidPaddingCount
  else
    match firstInvalid v c (l - padRun c l) with
    | some i => .err (.invalidCharacter i)
    | none => .ok (unpack v l (padRun c l) c)

end Sys2Proof.Machine
end

