-- ==== Sys2Proof/Machine/Flags.lean ====
section
/-! DEFINITION. The flags of STATUS: how the word is read, what each event does to each field (10_state.md R26 to R31),
the result codes (60_exceptions.md R200), and the interrupt (R206). -/

namespace Sys2Proof.Machine

/-- STATUS as it is read: zext_32(ERRCODE ‖ 0 ‖ OVR ‖ DONE ‖ BUSY) (20_memory.md R57). -/
def Status.word (st : Status) : Word :=
  (st.errCode ++ 0#1 ++ BitVec.ofBool st.ovr ++ BitVec.ofBool st.done ++ BitVec.ofBool st.busy).zeroExtend 32

/-- IRQ_EN as it is read: zext_32(DONE_IE) (R57). -/
def irqEnWord (doneIe : Bool) : Word := (BitVec.ofBool doneIe).zeroExtend 32

/-- irq = STATUS.DONE AND IRQ_EN.DONE_IE, a level (10_state.md R41, 60_exceptions.md R206). -/
def State.irq (s : State) : Bool := s.status.done && s.doneIe

/-- Result code 0, OK (R200). -/
def codeOk : BitVec 4 := 0

/-- Result code 4, BadCommand (R200). -/
def codeBadCommand : BitVec 4 := 4

/-- The result codes 1, 2 and 3 of the codec errors (R200). -/
def CodecError.code : CodecError → BitVec 4
  | .invalidLength => 1
  | .invalidPaddingCount => 2
  | .invalidCharacter _ => 3

/-- The ERR_POS a codec error records: the index for code 3, 0xFFFFFFFF otherwise (R200, R203). -/
def CodecError.position : CodecError → Word
  | .invalidCharacter pos => BitVec.ofNat 32 pos
  | .invalidLength | .invalidPaddingCount => noErrPos

/-- STATUS at an acceptance: ERRCODE 0, DONE 0, BUSY 1, OVR unchanged (43_command_lifecycle.md R170, R174). -/
def Status.accepted (st : Status) : Status := { st with busy := true, done := false, errCode := codeOk }

/-- STATUS at a completion: the result code, BUSY 0, DONE 1, OVR unchanged (R176, 60_exceptions.md R203). -/
def Status.completed (st : Status) (code : BitVec 4) : Status :=
  { st with busy := false, done := true, errCode := code }

/-- STATUS at a BadCommand: ERRCODE 4, DONE 1, BUSY and OVR unchanged (R170, R172). -/
def Status.badCommand (st : Status) : Status := { st with done := true, errCode := codeBadCommand }

/-- STATUS when a CMD write arrives while BUSY = 1: OVR 1 and nothing else (R171). -/
def Status.overrun (st : Status) : Status := { st with ovr := true }

/-- A host write to STATUS: bit 1 clears DONE, bit 2 clears OVR, every other bit is ignored (20_memory.md R58). -/
def Status.writeOneToClear (st : Status) (v : Word) : Status :=
  { st with
    done := if v.getLsbD 1 then false else st.done
    ovr := if v.getLsbD 2 then false else st.ovr }

end Sys2Proof.Machine
end

