-- ==== Sys2Proof/Machine/Ops.lean ====
section
/-! DEFINITION. The operations that change the state: writing buffer bytes, accepting, rejecting or dropping a command
(43_command_lifecycle.md R170), the successful completion (R176), the completion with an error, which is what this
block does instead of taking an exception (60_exceptions.md R203), and the acknowledgement that is its return
(R207, R208). -/

namespace Sys2Proof.Machine

/-- Write one byte, keeping the list strictly rising. -/
def Memory.set : Memory → Nat → Byte → Memory
  | [], i, x => [(i, x)]
  | (a, b) :: m, i, x =>
    if i < a then (i, x) :: (a, b) :: m
    else if i = a then (i, x) :: m
    else (a, b) :: Memory.set m i x

/-- Write bytes at i, i+1, …. -/
def Memory.setBytes (m : Memory) (i : Nat) : List Byte → Memory
  | [] => m
  | x :: xs => Memory.setBytes (m.set i x) (i + 1) xs

/-- The one form a buffer is held in: indices strictly rising. -/
abbrev Memory.wf (m : Memory) : Prop := m.Pairwise fun x y => x.1 < y.1

/-- Every listed index is below the buffer's size. -/
abbrev Memory.below (m : Memory) (size : Nat) : Prop := ∀ x ∈ m, x.1 < size

/-- The step begins: its event is taken off the agenda and the counter of the steps moves on. -/
def State.advance (s : State) : State := { s with agenda := s.agenda.tail, tick := s.tick + 1 }

/-- Accept(w) (R170, R174): LC takes the command and IN_LEN, the results are cleared, BUSY is set. -/
def State.accept (i : Instr) (s : State) : State :=
  { s with
    lc := { op := i.op, variant := i.variant, len := s.inLen }
    outLen := 0
    errPos := noErrPos
    status := s.status.accepted }

/-- BadCmd() (R170, R172). -/
def State.badCmd (s : State) : State :=
  { s with outLen := 0, errPos := noErrPos, status := s.status.badCommand }

/-- A CMD write that is dropped while BUSY = 1 (R171). -/
def State.dropCmd (s : State) : State := { s with status := s.status.overrun }

/-- complete(out) (R176). LC keeps the command that ended: DESIGN CHOICE, log entry 16. -/
def State.complete (out : List Byte) (s : State) : State :=
  { s with
    obuf := s.obuf.setBytes 0 out
    outLen := BitVec.ofNat 32 out.length
    errPos := noErrPos
    status := s.status.completed codeOk }

/-- DecBound = (LC.len div G_out) * G_in (20_memory.md R65, 60_exceptions.md R205). -/
def State.decBound (v : Variant) (s : State) : Nat := s.lc.len.toNat / gOut v * gIn v

/-- OBUF after a codec error (R205): unchanged, but for InvalidCharacter, where the bytes below DecBound are draws. -/
def State.obufAfterError (v : Variant) (e : CodecError) (s : State) : Memory :=
  match e with
  | .invalidCharacter _ => s.obuf.setBytes 0 ((List.range (s.decBound v)).map (Config.spoiledObuf s.tick))
  | .invalidLength | .invalidPaddingCount => s.obuf

/-- raise Err(code, pos) (R203): the completion of a DEC command that ends with code 1, 2 or 3. LC keeps the command that
ended: DESIGN CHOICE, log entry 16. -/
def State.raiseErr (v : Variant) (e : CodecError) (s : State) : State :=
  { s with
    obuf := s.obufAfterError v e
    outLen := 0
    errPos := e.position
    status := s.status.completed e.code }

/-- A host write of v to STATUS (20_memory.md R58). With bit 1 it is the host's acknowledgement, the only return from
an error there is (60_exceptions.md R207, R208). -/
def State.acknowledge (v : Word) (s : State) : State := { s with status := s.status.writeOneToClear v }

/-- The completion of an ENC command of variant v (R175): `complete(EncodeCore(v, LC.len))`. -/
def State.runEncode (v : Variant) (s : State) : State :=
  s.complete (encodeCore v s.lc.len.toNat s.ibufByte)

/-- The completion of a DEC command of variant v (R175). -/
def State.runDecode (v : Variant) (s : State) : State :=
  match decodeCore v s.lc.len.toNat s.ibufByte with
  | .ok out => s.complete out
  | .err e => s.raiseErr v e

end Sys2Proof.Machine
end

