-- ==== Sys2Proof/Machine/DecodeCommands.lean ====
section
/-! DEFINITION. The five decode commands (42_decode.md R151 to R156): what the Engine does when it completes one. -/

namespace Sys2Proof.Machine

/-- DEC.B64 (R152): `r := DecodeCore(0, LC.len); if r = OK(out) then complete(out) else raise Err(r.code, r.pos)`. -/
def execDecB64 (s : State) : Host.Outcome State Fault Refusal := .next (s.runDecode .b64)

/-- DEC.B64URL (R153). -/
def execDecB64url (s : State) : Host.Outcome State Fault Refusal := .next (s.runDecode .b64url)

/-- DEC.B32 (R154). -/
def execDecB32 (s : State) : Host.Outcome State Fault Refusal := .next (s.runDecode .b32)

/-- DEC.B32HEX (R155). -/
def execDecB32hex (s : State) : Host.Outcome State Fault Refusal := .next (s.runDecode .b32hex)

/-- DEC.B16 (R156). -/
def execDecB16 (s : State) : Host.Outcome State Fault Refusal := .next (s.runDecode .b16)

end Sys2Proof.Machine
end

