-- ==== Sys2Proof/Machine/EncodeCommands.lean ====
section
/-! DEFINITION. The five encode commands (41_encode.md R126 to R131): what the Engine does when it completes one. The
length is LC.len; the command's acceptance is the CMD write's (HostWindow.lean). -/

namespace Sys2Proof.Machine

/-- ENC.B64 (R127): `out := EncodeCore(0, LC.len); complete(out)`. -/
def execEncB64 (s : State) : Host.Outcome State Fault Refusal := .next (s.runEncode .b64)

/-- ENC.B64URL (R128). -/
def execEncB64url (s : State) : Host.Outcome State Fault Refusal := .next (s.runEncode .b64url)

/-- ENC.B32 (R129). -/
def execEncB32 (s : State) : Host.Outcome State Fault Refusal := .next (s.runEncode .b32)

/-- ENC.B32HEX (R130). -/
def execEncB32hex (s : State) : Host.Outcome State Fault Refusal := .next (s.runEncode .b32hex)

/-- ENC.B16 (R131). -/
def execEncB16 (s : State) : Host.Outcome State Fault Refusal := .next (s.runEncode .b16)

end Sys2Proof.Machine
end

