-- ==== Sys2Proof/Machine/Dispatch.lean ====
section
/-! DEFINITION. One arm for each command: what the Engine does when it completes it (43_command_lifecycle.md R175). -/

namespace Sys2Proof.Machine

def exec (i : Instr) (s : State) : Host.Outcome State Fault Refusal :=
  match i with
  | .encB64 => Sys2Proof.Machine.execEncB64 s
  | .decB64 => Sys2Proof.Machine.execDecB64 s
  | .encB64url => Sys2Proof.Machine.execEncB64url s
  | .decB64url => Sys2Proof.Machine.execDecB64url s
  | .encB32 => Sys2Proof.Machine.execEncB32 s
  | .decB32 => Sys2Proof.Machine.execDecB32 s
  | .encB32hex => Sys2Proof.Machine.execEncB32hex s
  | .decB32hex => Sys2Proof.Machine.execDecB32hex s
  | .encB16 => Sys2Proof.Machine.execEncB16 s
  | .decB16 => Sys2Proof.Machine.execDecB16 s

end Sys2Proof.Machine
end

