-- ==== Sys2Proof/Machine/HostWindow.lean ====
section
/-! DEFINITION. The Host's steps: the host window (20_memory.md R50 to R62), the register file behind it
(10_state.md R20 to R36), the CMD write (43_command_lifecycle.md R170), and reset (70_reset_and_hazards.md R230 to
R235). -/

namespace Sys2Proof.Machine

/-- The register at an offset; a reserved offset has none (10_state.md R20, R36). -/
def Reg.ofOffset (off : Nat) : Option Reg :=
  if off = 0x000 then some .id
  else if off = 0x004 then some .version
  else if off = 0x008 then some .cmd
  else if off = 0x00C then some .inLen
  else if off = 0x010 then some .outLen
  else if off = 0x014 then some .status
  else if off = 0x018 then some .irqEn
  else if off = 0x01C then some .errPos
  else if off = 0x020 then some .ibufSize
  else if off = 0x024 then some .obufSize
  else none

/-- RegRead(off) (20_memory.md R57); a reserved offset reads 0 (R36). -/
def State.regRead (s : State) (off : Nat) : Word :=
  match Reg.ofOffset off with
  | some .id => 0x42585858
  | some .version => 0x00010000
  | some .cmd => 0
  | some .inLen => s.inLen
  | some .outLen => s.outLen
  | some .status => s.status.word
  | some .irqEn => irqEnWord s.doneIe
  | some .errPos => s.errPos
  | some .ibufSize => BitVec.ofNat 32 s.params.ibufBytes
  | some .obufSize => BitVec.ofNat 32 s.params.obufBytes
  | none => 0

/-- CmdWrite(w) (43_command_lifecycle.md R170): its cases in the order of the rule. -/
def State.cmdWrite (s : State) (w : Word) : State :=
  if s.status.busy then s.dropCmd
  else
    match decode w with
    | .error _ => s.badCmd
    | .ok i => if s.params.ibufBytes < s.inLen.toNat then s.badCmd else s.accept i

/-- RegWrite(off, v) (20_memory.md R58); read-only registers and reserved offsets ignore it (R59). -/
def State.regWrite (s : State) (off : Nat) (v : Word) : State :=
  match Reg.ofOffset off with
  | some .cmd => s.cmdWrite v
  | some .inLen => { s with inLen := v }
  | some .status => s.acknowledge v
  | some .irqEn => { s with doneIe := v.getLsbD 0 }
  | some .id | some .version | some .outLen | some .errPos | some .ibufSize | some .obufSize | none => s

/-- Where an access of n bytes at an offset goes: the checks that MemRead (R55) and MemWrite (R56) share, on size and
alignment (R52, R53), range (R62) and BUSY (R61). -/
def State.target (s : State) (off n : Nat) : Target :=
  if ¬(n = 1 ∨ n = 2 ∨ n = 4) ∨ off % n ≠ 0 then .busError
  else if off < 0x1000 then
    if n = 4 then .register off else .busError
  else if off < 0x2000 then
    if s.params.ibufBytes < off - 0x1000 + n ∨ s.status.busy = true then .busError else .ibuf (off - 0x1000)
  else if s.params.obufBytes < off - 0x2000 + n ∨ s.status.busy = true then .busError else .obuf (off - 0x2000)

/-- MemRead(off, n) (R55): the data and the bus-error flag; with a bus error the data is 0. -/
def State.memRead (s : State) (off : Offset) (n : Nat) : Word × Bool :=
  match s.target off.toNat n with
  | .register r => (s.regRead r, false)
  | .ibuf i => (BitVec.ofNat 32 (leValue ((List.range n).map fun b => s.ibufByte (i + b))), false)
  | .obuf j => (BitVec.ofNat 32 (leValue ((List.range n).map fun b => s.obufByte (j + b))), false)
  | .busError => (0, true)

/-- MemWrite(off, n, v) (R56): the state after it and the bus-error flag. OBUF is read-only to the host (R60). -/
def State.memWrite (s : State) (off : Offset) (n : Nat) (v : Word) : State × Bool :=
  match s.target off.toNat n with
  | .register r => (s.regWrite r v, false)
  | .ibuf i => ({ s with ibuf := s.ibuf.setBytes i (valueBytes v n) }, false)
  | .obuf _ | .busError => (s, true)

/-- The host sees a reply. -/
def State.reply (r : Reply) (s : State) : State := { s with replies := r :: s.replies }

/-- A whole host transaction, one step (00_scope.md R12, 20_memory.md R63). -/
def State.transact (t : Transaction) (s : State) : State :=
  match t with
  | .read off n => s.reply (.read (s.memRead off n).1 (s.memRead off n).2)
  | .write off n v => (s.memWrite off n v).1.reply (.write (s.memWrite off n v).2)

/-- Reset (70_reset_and_hazards.md R231 to R233): every register at its reset value, LC unspecified (log
entry 5), no buffer byte known and a new draw for each of them (log entry 6). -/
def State.resetBlock (s : State) : State :=
  { s with
    inLen := 0
    outLen := 0
    status := Status.reset
    doneIe := false
    errPos := noErrPos
    lc := { op := Config.resetOp s.tick, variant := Config.resetVariant s.tick, len := Config.resetLen s.tick }
    ibuf := []
    obuf := []
    resets := s.resets + 1 }

/-- The reply to a transaction in flight at reset: none, or any data and flag (R235, log entry 10). -/
def tornReplies (tick : Nat) (t : Transaction) : List Reply :=
  match Config.tornReply tick, t with
  | none, _ => []
  | some (d, e), .read _ _ => [.read d e]
  | some (_, e), .write _ _ _ => [.write e]

/-- Reset asserted while a transaction is in flight (R235): the reset leaves no trace of its effect, since every
register is overwritten and every buffer byte is unspecified (93_implementation_defined.md I6); what the host got back
is free. DESIGN CHOICE, log entry 10. -/
def State.resetInFlight (t : Transaction) (s : State) : State :=
  { s.resetBlock with replies := tornReplies s.tick t ++ s.replies }

/-- The state in which the Engine's very next step runs the command in a table word: the CMD write of that word has
been accepted and the Engine moves first. A word that is no command cannot be latched, so it is left as the CMD write
that the next step performs (log entry 2). -/
def State.placeWord (s : State) (nbits w : Nat) : State :=
  match decodeTableWord nbits w with
  | some i => { s.accept i with agenda := .engine :: s.agenda }
  | none => { s with agenda := .host (.write 0x008 4 (BitVec.ofNat 32 (w % 2 ^ nbits))) :: s.agenda }

end Sys2Proof.Machine
end

