-- ==== Sys2Proof/Machine/HostProgram.lean ====
section
/-! DEFINITION. The host-program notation of 30_encoding.md R88 and R89: its lines as events of the agenda. A label
and the branch BNE belong to the host's own processor and reach no part of the block (log entry 12). -/

namespace Sys2Proof.Machine

/-- `WR8 off, v`, `WR16 off, v`, `WR32 off, v`: MemWrite(off, n/8, v) for n bits (R88). -/
def writeLine (bits : Nat) (off : Offset) (v : Word) : Event := .host (.write off (bits / 8) v)

/-- `RD8 off`, `RD16 off`, `RD32 off`: MemRead(off, n/8) for n bits (R88). -/
def readLine (bits : Nat) (off : Offset) : Event := .host (.read off (bits / 8))

/-- The condition of `BNE name, mask, value, label`: the branch is taken when (data AND mask) ≠ value (R88). -/
def branchTaken (data mask value : Word) : Bool := data &&& mask != value

/-- `RUN mnemonic`: `WR32 CMD, <CMD value>` (R89). -/
def runLine (i : Instr) : Event := writeLine 32 0x008 (encode i)

/-- The k reads of STATUS that a `WAIT` makes when its loop ends at the k-th poll (R89). -/
def waitPolls (k : Nat) : List Event := List.replicate k (readLine 32 0x014)

/-- `ACK`: `WR32 STATUS, 0x6`, which clears DONE and OVR (R89). -/
def ackLine : Event := writeLine 32 0x014 0x00000006

/-- `LOAD i, [b0, b1, …]`: one `WR8 0x1000+i+m, b_m` for each byte, in ascending m (R89). -/
def loadLines (i : Nat) : List Byte → List Event
  | [] => []
  | b :: bs => writeLine 8 (BitVec.ofNat 14 (0x1000 + i)) (b.zeroExtend 32) :: loadLines (i + 1) bs

end Sys2Proof.Machine
end

