-- ==== Sys2Proof/Machine/Step.lean ====
section
/-! DEFINITION. One step of the block (00_scope.md R12): the agenda says who moves. The Engine's step is enabled
exactly while BUSY = 1 (43_command_lifecycle.md R175, R181); when no event is left and BUSY = 1 the Engine moves
(R180), and when no event is left and BUSY = 0 nothing happens (R181). -/

namespace Sys2Proof.Machine

/-- The Engine's turn: EngineComplete on the command in LC if BUSY = 1 (R175), else no step (R181). -/
def engineTurn (s : State) : Host.Outcome State Fault Refusal :=
  if s.status.busy then exec s.lc.instr s.advance else .next s.advance

/-- One step. With nothing pending and BUSY = 0 the state stays as it is (R181, log entry 2). -/
def step (s : State) : Host.Outcome State Fault Refusal :=
  match s.agenda with
  | [] => if s.status.busy then engineTurn s else .next s
  | .engine :: _ => engineTurn s
  | .host t :: _ => .next (s.advance.transact t)
  | .reset :: _ => .next s.advance.resetBlock
  | .resetDuring t :: _ => .next (s.advance.resetInFlight t)

/-- The state whose very next step runs the command in a table word (log entry 2). -/
def State.withFetchWord (s : State) (nbits w : Nat) : State := s.placeWord nbits w

end Sys2Proof.Machine
end

