-- ==== Sys2Proof/Safety.lean ====
section
/-! DEFINITION. What holds of every reachable state (10_state.md R46, and the form in which the buffers are held), the
end of a command (43_command_lifecycle.md R182), and the words the statements use. -/

namespace Sys2Proof.Machine

/-- While a command runs no result is shown (R46(a), 43_command_lifecycle.md R177). -/
def State.BusyHidesResults (s : State) : Prop :=
  s.status.busy = true →
    s.status.done = false ∧ s.status.errCode = 0 ∧ s.outLen = 0 ∧ s.errPos = 0xFFFFFFFF ∧
      s.lc.len.toNat ≤ s.params.ibufBytes

/-- The invariant: R46(a) to R46(e); the parameters meet 00_scope.md R7; each buffer is held in its one form, within
its size; and every byte that OUT_LEN counts as valid is held (R25, R38).
R46(c) speaks of the length of the command that completed: LC still holds it, the model's choice of log entry 16. -/
structure State.Inv (s : State) : Prop where
  params_wf : s.params.wf
  busy_hides : s.BusyHidesResults
  error_no_output : s.status.errCode ≠ 0 → s.outLen = 0
  errPos_code : s.errPos ≠ 0xFFFFFFFF → s.status.errCode = 3 ∧ s.errPos.toNat < s.lc.len.toNat
  outLen_le : s.outLen.toNat ≤ s.params.obufBytes
  errCode_le : s.status.errCode.toNat ≤ 4
  ibuf_wf : s.ibuf.wf
  ibuf_below : s.ibuf.below s.params.ibufBytes
  obuf_wf : s.obuf.wf
  obuf_below : s.obuf.below s.params.obufBytes
  output_held : ∀ j < s.outLen.toNat, (s.obuf.get? j).isSome

/-- A command submitted by a CMD write has ended in a state with DONE = 1 (R182). -/
def State.ended (s : State) : Bool := s.status.done

/-- The result of an ended command (R182): ERRCODE, OUT_LEN, ERR_POS and OBUF[0..OUT_LEN−1]. -/
def State.result (s : State) : BitVec 4 × Word × Word × List Byte :=
  (s.status.errCode, s.outLen, s.errPos, (List.range s.outLen.toNat).map s.obufByte)

/-- The event is a reset, with or without a transaction in flight. -/
def Event.isReset : Event → Bool
  | .reset | .resetDuring _ => true
  | .host _ | .engine => false

/-- The latched length fits the input buffer (10_state.md R40) of a block whose parameters meet 00_scope.md R7. -/
abbrev State.LatchFits (s : State) : Prop := s.params.wf ∧ s.lc.len.toNat ≤ s.params.ibufBytes

/-- No event of the agenda is a reset. -/
abbrev State.NoReset (s : State) : Prop := ∀ e ∈ s.agenda, e.isReset = false

/-- What no completion touches: everything but OBUF, OUT_LEN, ERR_POS and STATUS (30_encoding.md R83), and OVR
(43_command_lifecycle.md R176, 60_exceptions.md R203). That LC stays as it was is the model's choice, log entry 16. -/
structure State.SameOutside (s t : State) : Prop where
  params : t.params = s.params
  inLen : t.inLen = s.inLen
  doneIe : t.doneIe = s.doneIe
  lc : t.lc = s.lc
  ibuf : t.ibuf = s.ibuf
  agenda : t.agenda = s.agenda
  replies : t.replies = s.replies
  tick : t.tick = s.tick
  resets : t.resets = s.resets
  ovr : t.status.ovr = s.status.ovr

/-- t is s after a successful completion with n output bytes, byte j being out j (R176). -/
structure State.SucceededWith (s t : State) (n : Nat) (out : Nat → Byte) : Prop where
  busy : t.status.busy = false
  done : t.status.done = true
  errCode : t.status.errCode = 0
  outLen : t.outLen.toNat = n
  errPos : t.errPos = 0xFFFFFFFF
  output : ∀ j < n, t.obuf.get? j = some (out j)
  rest : ∀ j, n ≤ j → t.obufByte j = s.obufByte j
  frame : s.SameOutside t

/-- t is s after a completion with error code `code` and ERR_POS `pos`; every OBUF byte from `bound` on is unchanged
(60_exceptions.md R203, R205). -/
structure State.FailedWith (s t : State) (code : BitVec 4) (pos : Word) (bound : Nat) : Prop where
  busy : t.status.busy = false
  done : t.status.done = true
  errCode : t.status.errCode = code
  outLen : t.outLen = 0
  errPos : t.errPos = pos
  rest : ∀ j, bound ≤ j → t.obufByte j = s.obufByte j
  frame : s.SameOutside t

/-- The first l characters end in a run of exactly p padding characters (42_decode.md R144). -/
def EndsInPadding (c : Nat → Byte) (l p : Nat) : Prop :=
  p ≤ l ∧ (∀ i < l, l - p ≤ i → c i = 0x3D) ∧ (p < l → c (l - p - 1) ≠ 0x3D)

/-- Input byte i of an encode command of n bytes; beyond the input it is zero (41_encode.md R120). -/
def inputNat (n : Nat) (b : Nat → Byte) (i : Nat) : Nat := if i < n then (b i).toNat else 0

/-- Character j of the Base64 text of n bytes, group by group (R120, R122). -/
def base64Char (v : Variant) (n : Nat) (b : Nat → Byte) (j : Nat) : Byte :=
  let x := inputNat n b
  let g := 3 * (j / 4)
  if j % 4 = 0 then symbolOf v (x g / 4)
  else if j % 4 = 1 then symbolOf v (x g % 4 * 16 + x (g + 1) / 16)
  else if j % 4 = 2 then if g + 1 < n then symbolOf v (x (g + 1) % 16 * 4 + x (g + 2) / 64) else 0x3D
  else if g + 2 < n then symbolOf v (x (g + 2) % 64) else 0x3D

/-- Character j of the Base32 text of n bytes, group by group (R120, R122). -/
def base32Char (v : Variant) (n : Nat) (b : Nat → Byte) (j : Nat) : Byte :=
  let x := inputNat n b
  let g := 5 * (j / 8)
  if j % 8 = 0 then symbolOf v (x g / 8)
  else if j % 8 = 1 then symbolOf v (x g % 8 * 4 + x (g + 1) / 64)
  else if j % 8 = 2 then if g + 1 < n then symbolOf v (x (g + 1) / 2 % 32) else 0x3D
  else if j % 8 = 3 then if g + 1 < n then symbolOf v (x (g + 1) % 2 * 16 + x (g + 2) / 16) else 0x3D
  else if j % 8 = 4 then if g + 2 < n then symbolOf v (x (g + 2) % 16 * 2 + x (g + 3) / 128) else 0x3D
  else if j % 8 = 5 then if g + 3 < n then symbolOf v (x (g + 3) / 4 % 32) else 0x3D
  else if j % 8 = 6 then if g + 3 < n then symbolOf v (x (g + 3) % 4 * 8 + x (g + 4) / 32) else 0x3D
  else if g + 4 < n then symbolOf v (x (g + 4) % 32) else 0x3D

/-- Character j of the Base16 text: ALPHA_4[b[7:4]] then ALPHA_4[b[3:0]] of each byte b (R131). -/
def base16Char (b : Nat → Byte) (j : Nat) : Byte :=
  if j % 2 = 0 then symbolOf .b16 ((b (j / 2)).toNat / 16) else symbolOf .b16 ((b (j / 2)).toNat % 16)

/-- The input as one stream of bits, the first byte first and the most significant bit of each byte first
(00_scope.md R9); beyond the input every bit is 0. -/
def streamBit (n : Nat) (b : Nat → Byte) (m : Nat) : Bool := decide (m / 8 < n) && (b (m / 8)).getLsbD (7 - m % 8)

/-- The number that the w stream bits from bit m on spell, most significant first. -/
def streamValue (n : Nat) (b : Nat → Byte) (m : Nat) : Nat → Nat
  | 0 => 0
  | w + 1 => 2 * streamValue n b m w + (streamBit n b (m + w)).toNat

/-- The value of text character i of m significant characters; a stripped padding position is zero (42_decode.md
R148). -/
def charValue (v : Variant) (m : Nat) (c : Nat → Byte) (i : Nat) : Nat :=
  if i < m then (valueOf v (c i)).getD 0 else 0

/-- Byte j decoded from a Base64 text of m significant characters (R148). -/
def base64Byte (v : Variant) (m : Nat) (c : Nat → Byte) (j : Nat) : Byte :=
  let x := charValue v m c
  let g := 4 * (j / 3)
  BitVec.ofNat 8 <|
    if j % 3 = 0 then x g * 4 + x (g + 1) / 16
    else if j % 3 = 1 then x (g + 1) % 16 * 16 + x (g + 2) / 4
    else x (g + 2) % 4 * 64 + x (g + 3)

/-- Byte j decoded from a Base32 text of m significant characters (R148). -/
def base32Byte (v : Variant) (m : Nat) (c : Nat → Byte) (j : Nat) : Byte :=
  let x := charValue v m c
  let g := 8 * (j / 5)
  BitVec.ofNat 8 <|
    if j % 5 = 0 then x g * 8 + x (g + 1) / 4
    else if j % 5 = 1 then x (g + 1) % 4 * 64 + x (g + 2) * 2 + x (g + 3) / 16
    else if j % 5 = 2 then x (g + 3) % 16 * 16 + x (g + 4) / 2
    else if j % 5 = 3 then x (g + 4) % 2 * 128 + x (g + 5) * 4 + x (g + 6) / 8
    else x (g + 6) % 8 * 32 + x (g + 7)

/-- Byte j decoded from a Base16 text: VALUE_4(c0) ‖ VALUE_4(c1) of pair j (R156). -/
def base16Byte (c : Nat → Byte) (j : Nat) : Byte :=
  BitVec.ofNat 8 ((valueOf .b16 (c (2 * j))).getD 0 * 16 + (valueOf .b16 (c (2 * j + 1))).getD 0)

/-- VALUE_v(c) as the code ranges of 40_alphabet.md R108. -/
def rangeValue (v : Variant) (c : Nat) : Option Nat :=
  match v with
  | .b64 =>
    if 0x41 ≤ c ∧ c ≤ 0x5A then some (c - 0x41)
    else if 0x61 ≤ c ∧ c ≤ 0x7A then some (c - 0x47)
    else if 0x30 ≤ c ∧ c ≤ 0x39 then some (c + 0x04)
    else if c = 0x2B then some 62 else if c = 0x2F then some 63 else none
  | .b64url =>
    if 0x41 ≤ c ∧ c ≤ 0x5A then some (c - 0x41)
    else if 0x61 ≤ c ∧ c ≤ 0x7A then some (c - 0x47)
    else if 0x30 ≤ c ∧ c ≤ 0x39 then some (c + 0x04)
    else if c = 0x2D then some 62 else if c = 0x5F then some 63 else none
  | .b32 =>
    if 0x41 ≤ c ∧ c ≤ 0x5A then some (c - 0x41) else if 0x32 ≤ c ∧ c ≤ 0x37 then some (c - 0x18) else none
  | .b32hex =>
    if 0x30 ≤ c ∧ c ≤ 0x39 then some (c - 0x30) else if 0x41 ≤ c ∧ c ≤ 0x56 then some (c - 0x37) else none
  | .b16 =>
    if 0x30 ≤ c ∧ c ≤ 0x39 then some (c - 0x30) else if 0x41 ≤ c ∧ c ≤ 0x46 then some (c - 0x37) else none

/-- The character at an index of a text. -/
def charAt (text : List Byte) (i : Nat) : Byte := text.getD i 0

end Sys2Proof.Machine
end

