-- ==== Sys2Proof/Certificates/Slice0/Obligations.lean ====
section
/-! DEFINITION. The statements: what the numbered rules of the spec say of the decoder, the codec, the host window, the
command's life, reset and every step. Each docstring names the rules. -/

open Sys2Proof Sys2Proof.Machine

/-! ### The command words (30_encoding.md) -/

/-- The ten words of R84, written out bit by bit from its CMD column (RES ‖ VARIANT ‖ OP), decode to their commands. -/
def Obligations.TableWordsDecodeToTheirCommands : Prop :=
  decode (0#28 ++ 0b000#3 ++ 0#1) = .ok .encB64 ∧ decode (0#28 ++ 0b000#3 ++ 1#1) = .ok .decB64 ∧
  decode (0#28 ++ 0b001#3 ++ 0#1) = .ok .encB64url ∧ decode (0#28 ++ 0b001#3 ++ 1#1) = .ok .decB64url ∧
  decode (0#28 ++ 0b010#3 ++ 0#1) = .ok .encB32 ∧ decode (0#28 ++ 0b010#3 ++ 1#1) = .ok .decB32 ∧
  decode (0#28 ++ 0b011#3 ++ 0#1) = .ok .encB32hex ∧ decode (0#28 ++ 0b011#3 ++ 1#1) = .ok .decB32hex ∧
  decode (0#28 ++ 0b100#3 ++ 0#1) = .ok .encB16 ∧ decode (0#28 ++ 0b100#3 ++ 1#1) = .ok .decB16

/-- R84: each command is selected by exactly one 32-bit value, with OP = CMD[0] and VARIANT = CMD[3:1]. -/
def Obligations.DecodeAcceptsExactlyTheTableWords : Prop :=
  (∀ w : Word,
    (decode w = .ok .encB64 ↔ w = 0x00000000) ∧ (decode w = .ok .decB64 ↔ w = 0x00000001) ∧
    (decode w = .ok .encB64url ↔ w = 0x00000002) ∧ (decode w = .ok .decB64url ↔ w = 0x00000003) ∧
    (decode w = .ok .encB32 ↔ w = 0x00000004) ∧ (decode w = .ok .decB32 ↔ w = 0x00000005) ∧
    (decode w = .ok .encB32hex ↔ w = 0x00000006) ∧ (decode w = .ok .decB32hex ↔ w = 0x00000007) ∧
    (decode w = .ok .encB16 ↔ w = 0x00000008) ∧ (decode w = .ok .decB16 ↔ w = 0x00000009)) ∧
  (∀ (w : Word) (i : Instr), decode w = .ok i →
    i.op = (if w.getLsbD 0 then .dec else .enc) ∧
    w.extractLsb' 1 3 = (match i.variant with | .b64 => 0 | .b64url => 1 | .b32 => 2 | .b32hex => 3 | .b16 => 4) ∧
    w.extractLsb' 4 28 = 0)

/-- R80, R87: the assembled form of a command decodes back to it, as a word and as the four bytes of a longer
sequence. -/
def Obligations.EncodedCommandDecodesBack : Prop :=
  ∀ (i : Instr) (rest : List Byte),
    decode (encode i) = .ok i ∧ decodeBytes (wordBytes (encode i) ++ rest) = .ok (i, rest)

/-- R85: every word with CMD[31:4] ≠ 0, and the values 0xA to 0xF, are rejected, each by its name; no other is. -/
def Obligations.IllegalWordsAreRejectedByName : Prop :=
  ∀ w : Word,
    (16 ≤ w.toNat → decode w = .error .reservedBits) ∧
    (10 ≤ w.toNat → w.toNat < 16 → decode w = .error .reservedVariant) ∧
    (w.toNat < 10 → ∃ i, decode w = .ok i)

/-! ### The alphabets (40_alphabet.md) -/

/-- R101 to R105: each table is the string its rule gives. -/
def Obligations.AlphabetsAreTheStringsOfTheirRules : Prop :=
  (alphabet .b64).map (fun c => Char.ofNat c.toNat)
    = "ABCDEFGHIJKLMNOPQRSTUVWXYZabcdefghijklmnopqrstuvwxyz0123456789+/".toList ∧
  (alphabet .b64url).map (fun c => Char.ofNat c.toNat)
    = "ABCDEFGHIJKLMNOPQRSTUVWXYZabcdefghijklmnopqrstuvwxyz0123456789-_".toList ∧
  (alphabet .b32).map (fun c => Char.ofNat c.toNat) = "ABCDEFGHIJKLMNOPQRSTUVWXYZ234567".toList ∧
  (alphabet .b32hex).map (fun c => Char.ofNat c.toNat) = "0123456789ABCDEFGHIJKLMNOPQRSTUV".toList ∧
  (alphabet .b16).map (fun c => Char.ofNat c.toNat) = "0123456789ABCDEF".toList

/-- R100: ALPHA_v has 2^W entries (64, 64, 32, 32, 16), no two equal, and `=` is in no table. -/
def Obligations.AlphabetsAreTotalAndInjective : Prop :=
  (∀ v : Variant, (alphabet v).length = 2 ^ width v) ∧
  2 ^ width .b64 = 64 ∧ 2 ^ width .b64url = 64 ∧ 2 ^ width .b32 = 32 ∧ 2 ^ width .b32hex = 32 ∧ 2 ^ width .b16 = 16 ∧
  (∀ (v : Variant) (t u : Nat), t < 2 ^ width v → u < 2 ^ width v → symbolOf v t = symbolOf v u → t = u) ∧
  (∀ (v : Variant) (t : Nat), t < 2 ^ width v → symbolOf v t ≠ 0x3D)

/-- R107: VALUE_v(c) is the one t with ALPHA_v[t] = c, and NONE exactly where there is none. -/
def Obligations.ValueLookupInvertsTheAlphabet : Prop :=
  ∀ (v : Variant) (c : Byte),
    (∀ t : Nat, valueOf v c = some t ↔ t < 2 ^ width v ∧ symbolOf v t = c) ∧
    (valueOf v c = none ↔ ∀ t < 2 ^ width v, symbolOf v t ≠ c)

/-- R108: the inverse lookup, as code ranges, on all 256 bytes of each variant. -/
def Obligations.ValueLookupMatchesTheCodeRanges : Prop :=
  ∀ (v : Variant) (c : Byte), valueOf v c = rangeValue v c.toNat

/-- R109, R110: `=`, every byte from 0x80 on, space and every control byte are NONE for every variant; lower-case
letters are NONE for both Base32 variants, `a` to `f` for Base16, and distinct from upper case for Base64. -/
def Obligations.LookupIsExactOnTheByteValue : Prop :=
  (∀ v : Variant, valueOf v 0x3D = none) ∧
  (∀ (v : Variant) (c : Byte), 0x80 ≤ c.toNat → valueOf v c = none) ∧
  (∀ (v : Variant) (c : Byte), c.toNat ≤ 0x20 ∨ c.toNat = 0x7F → valueOf v c = none) ∧
  (∀ c : Byte, 0x61 ≤ c.toNat → c.toNat ≤ 0x7A → valueOf .b32 c = none ∧ valueOf .b32hex c = none) ∧
  (∀ c : Byte, 0x61 ≤ c.toNat → c.toNat ≤ 0x66 → valueOf .b16 c = none) ∧
  (∀ c : Byte, 0x61 ≤ c.toNat → c.toNat ≤ 0x7A → ∀ v ∈ [Variant.b64, .b64url],
    (valueOf v c).isSome ∧ (valueOf v (c - 0x20)).isSome ∧ valueOf v c ≠ valueOf v (c - 0x20))

/-! ### Encode commands (41_encode.md) -/

/-- R127, R128: ENC.B64 and ENC.B64URL complete, whatever the input, with 4*ceil(N/3) characters, each the alphabet's
symbol of its six input bits or padding; everything else is left alone. -/
def Obligations.EncB64CompletesWithTheBase64Text : Prop :=
  ∀ (i : Instr) (s : State), i = .encB64 ∨ i = .encB64url → s.LatchFits →
    ∃ t, exec i s = .next t ∧
      s.SucceededWith t (4 * ((s.lc.len.toNat + 2) / 3)) (base64Char i.variant s.lc.len.toNat s.ibufByte)

/-- R129, R130: ENC.B32 and ENC.B32HEX complete with 8*ceil(N/5) characters. -/
def Obligations.EncB32CompletesWithTheBase32Text : Prop :=
  ∀ (i : Instr) (s : State), i = .encB32 ∨ i = .encB32hex → s.LatchFits →
    ∃ t, exec i s = .next t ∧
      s.SucceededWith t (8 * ((s.lc.len.toNat + 4) / 5)) (base32Char i.variant s.lc.len.toNat s.ibufByte)

/-- R131: ENC.B16 completes with two characters for each byte and no padding. -/
def Obligations.EncB16CompletesWithTheBase16Text : Prop :=
  ∀ s : State, s.LatchFits →
    ∃ t, exec .encB16 s = .next t ∧ s.SucceededWith t (2 * s.lc.len.toNat) (base16Char s.ibufByte)

/-- R9, R120 to R122: for every variant the output is the input's bit stream cut into W-bit windows, most significant
bit first: a window with at least one input bit is emitted as a symbol, every other one as padding. -/
def Obligations.EncodersCutTheBitStreamIntoWindows : Prop :=
  ∀ (v : Variant) (s : State), s.LatchFits →
    ∃ t, exec (Instr.ofFields .enc v) s = .next t ∧
      t.outLen.toNat = (s.lc.len.toNat + gIn v - 1) / gIn v * gOut v ∧
      ∀ j < t.outLen.toNat, t.obuf.get? j = some
        (if j * width v < 8 * s.lc.len.toNat
          then symbolOf v (streamValue s.lc.len.toNat s.ibufByte (j * width v) (width v)) else 0x3D)

/-- R124: the length law. -/
def Obligations.EncodedLengthLaw : Prop :=
  ∀ (n : Nat) (b : Nat → Byte),
    (∀ v : Variant, (encodeCore v n b).length = (n + gIn v - 1) / gIn v * gOut v ∧
      gOut v ∣ (encodeCore v n b).length ∧ encodeCore v 0 b = []) ∧
    (encodeCore .b64 n b).length = 4 * ((n + 2) / 3) ∧ (encodeCore .b64url n b).length = 4 * ((n + 2) / 3) ∧
    (encodeCore .b32 n b).length = 8 * ((n + 4) / 5) ∧ (encodeCore .b32hex n b).length = 8 * ((n + 4) / 5) ∧
    (encodeCore .b16 n b).length = 2 * n

/-- R128: the URL-safe text is the standard text with `+` replaced by `-` and `/` by `_`. -/
def Obligations.UrlSafeTextDiffersOnlyAt62And63 : Prop :=
  ∀ (n : Nat) (b : Nat → Byte),
    encodeCore .b64url n b
      = (encodeCore .b64 n b).map fun c => if c = 0x2B then 0x2D else if c = 0x2F then 0x5F else c

/-! ### Decode commands (42_decode.md) -/

/-- R148, R152, R153: DEC.B64 and DEC.B64URL on a text of L characters, L a multiple of 4, with p ≤ 2 trailing padding
characters and only alphabet characters before them, complete with the 3*(L/4) − p bytes its symbols spell. -/
def Obligations.DecB64CompletesWithTheDecodedBytes : Prop :=
  ∀ (i : Instr) (s : State) (p : Nat), i = .decB64 ∨ i = .decB64url → s.LatchFits →
    s.lc.len.toNat % 4 = 0 → p ≤ 2 → EndsInPadding s.ibufByte s.lc.len.toNat p →
    (∀ k < s.lc.len.toNat - p, (valueOf i.variant (s.ibufByte k)).isSome) →
    ∃ t, exec i s = .next t ∧
      s.SucceededWith t (3 * (s.lc.len.toNat / 4) - p) (base64Byte i.variant (s.lc.len.toNat - p) s.ibufByte)

/-- R148, R154, R155: DEC.B32 and DEC.B32HEX on a text of L characters, L a multiple of 8, with p ∈ {0, 1, 3, 4, 6}
trailing padding characters, complete with 5*(L/8) − {0, 1, 2, 3, 4} bytes. -/
def Obligations.DecB32CompletesWithTheDecodedBytes : Prop :=
  ∀ (i : Instr) (s : State) (p q : Nat), i = .decB32 ∨ i = .decB32hex → s.LatchFits →
    s.lc.len.toNat % 8 = 0 → (p, q) ∈ [(0, 0), (1, 1), (3, 2), (4, 3), (6, 4)] →
    EndsInPadding s.ibufByte s.lc.len.toNat p →
    (∀ k < s.lc.len.toNat - p, (valueOf i.variant (s.ibufByte k)).isSome) →
    ∃ t, exec i s = .next t ∧
      s.SucceededWith t (5 * (s.lc.len.toNat / 8) - q) (base32Byte i.variant (s.lc.len.toNat - p) s.ibufByte)

/-- R148, R156: DEC.B16 on an even number of alphabet characters completes with one byte for each pair. -/
def Obligations.DecB16CompletesWithTheDecodedBytes : Prop :=
  ∀ s : State, s.LatchFits → s.lc.len.toNat % 2 = 0 →
    (∀ k < s.lc.len.toNat, (valueOf .b16 (s.ibufByte k)).isSome) →
    ∃ t, exec .decB16 s = .next t ∧ s.SucceededWith t (s.lc.len.toNat / 2) (base16Byte s.ibufByte)

/-- R142: a positive length that is no multiple of G_out (4, 4, 8, 8, 2) ends the command with InvalidLength, whatever
the text; OBUF is unchanged. -/
def Obligations.DecodeRejectsALengthThatIsNoMultiple : Prop :=
  ∀ (i : Instr) (g : Nat) (s : State),
    (i, g) ∈ [(Instr.decB64, 4), (.decB64url, 4), (.decB32, 8), (.decB32hex, 8), (.decB16, 2)] →
    s.lc.len.toNat % g ≠ 0 →
    ∃ t, exec i s = .next t ∧ s.FailedWith t 1 0xFFFFFFFF 0

/-- R145, R146: a trailing run longer than PADMAX (2, 2, 6, 6, 0), or of 2 or 5 characters in Base32, ends the command
with InvalidPaddingCount, whatever the other characters; OBUF is unchanged. -/
def Obligations.DecodeRejectsABadPaddingCount : Prop :=
  ∀ (i : Instr) (g m : Nat) (s : State) (p : Nat),
    (i, g, m) ∈ [(Instr.decB64, 4, 2), (.decB64url, 4, 2), (.decB32, 8, 6), (.decB32hex, 8, 6), (.decB16, 2, 0)] →
    s.lc.len.toNat % g = 0 → EndsInPadding s.ibufByte s.lc.len.toNat p →
    m < p ∨ g = 8 ∧ (p = 2 ∨ p = 5) →
    ∃ t, exec i s = .next t ∧ s.FailedWith t 2 0xFFFFFFFF 0

/-- R147, R205: with length and padding in order, the lowest index k before the padding whose character is outside the
alphabet ends the command with InvalidCharacter and ERR_POS = k; OBUF is unchanged from DecBound on. -/
def Obligations.DecodeReportsTheFirstInvalidCharacter : Prop :=
  ∀ (i : Instr) (g m b : Nat) (s : State) (p k : Nat),
    (i, g, m, b) ∈ [(Instr.decB64, 4, 2, 3), (.decB64url, 4, 2, 3), (.decB32, 8, 6, 5), (.decB32hex, 8, 6, 5),
      (.decB16, 2, 0, 1)] →
    s.lc.len.toNat % g = 0 → EndsInPadding s.ibufByte s.lc.len.toNat p →
    p ≤ m → ¬(g = 8 ∧ (p = 2 ∨ p = 5)) →
    k < s.lc.len.toNat - p → valueOf i.variant (s.ibufByte k) = none →
    (∀ l < k, (valueOf i.variant (s.ibufByte l)).isSome) →
    ∃ t, exec i s = .next t ∧ s.FailedWith t 3 (BitVec.ofNat 32 k) (s.lc.len.toNat / g * b)

/-- R150: the length of a decoded text, never above the text's own. -/
def Obligations.DecodedLengthLaw : Prop :=
  ∀ (v : Variant) (l : Nat) (c : Nat → Byte) (out : List Byte), decodeCore v l c = .ok out →
    out.length ≤ l ∧ (l = 0 → out.length = 0) ∧
    ∃ p, EndsInPadding c l p ∧ (p = 0 → out.length = l / gOut v * gIn v) ∧
      (0 < p → ∃ k, tailBytes v (gOut v - p) = some k ∧ out.length = (l / gOut v - 1) * gIn v + k)

/-- R149: two texts that differ in their last significant symbol only, and there only in the S*W − 8*k(S) low bits,
decode alike. -/
def Obligations.DiscardedBitsAreIgnored : Prop :=
  ∀ (v : Variant) (l p k x y : Nat) (c d : Nat → Byte),
    EndsInPadding c l p → 0 < p → tailBytes v (gOut v - p) = some k → l % gOut v = 0 →
    (∀ i < l, i ≠ l - p - 1 → c i = d i) →
    valueOf v (c (l - p - 1)) = some x → valueOf v (d (l - p - 1)) = some y →
    x / 2 ^ ((gOut v - p) * width v - 8 * k) = y / 2 ^ ((gOut v - p) * width v - 8 * k) →
    decodeCore v l c = decodeCore v l d

/-! ### Every completion (43_command_lifecycle.md, 60_exceptions.md) -/

/-- R202, R27, R28: every command completes with BUSY = 0 and DONE = 1; an encode command with code 0, a decode command
with code 0, 1, 2 or 3, and DEC.B16 with code 2 only on a trailing `=`. -/
def Obligations.CommandsEndWithTheirOwnResultCodes : Prop :=
  ∀ (i : Instr) (s : State), ∃ t, exec i s = .next t ∧ t.status.busy = false ∧ t.status.done = true ∧
    t.status.ovr = s.status.ovr ∧
    (i.op = .enc → t.status.errCode = 0) ∧ (i.op = .dec → t.status.errCode.toNat ≤ 3) ∧
    (i = .decB16 → t.status.errCode = 2 → 0 < s.lc.len.toNat ∧ s.ibufByte (s.lc.len.toNat - 1) = 0x3D)

/-- R65: a completion leaves everything alone but STATUS, OUT_LEN, ERR_POS and the OBUF bytes the rule names; a CMD
write, BadCommand included, writes no OBUF byte. -/
def Obligations.CompletionsWriteOnlyTheirOwnOutput : Prop :=
  (∀ (i : Instr) (s t : State), s.LatchFits → exec i s = .next t →
    s.SameOutside t ∧
    (t.status.errCode = 0 → (∀ j < t.outLen.toNat, (t.obuf.get? j).isSome) ∧
      ∀ j, t.outLen.toNat ≤ j → t.obufByte j = s.obufByte j) ∧
    (t.status.errCode = 1 ∨ t.status.errCode = 2 → t.obuf = s.obuf) ∧
    (t.status.errCode = 3 →
      ∀ j, s.lc.len.toNat / gOut i.variant * gIn i.variant ≤ j → t.obufByte j = s.obufByte j)) ∧
  (∀ (s : State) (w : Word), (s.memWrite 0x008 4 w).1.obuf = s.obuf)

/-- R64, R179: the result of a command depends on the latched length and the input bytes alone: two states that agree
on these give the same ERRCODE, OUT_LEN, ERR_POS and output bytes, whatever else they hold. -/
def Obligations.ResultDependsOnlyOnTheOperands : Prop :=
  ∀ (i : Instr) (s s' : State), s.lc.len = s'.lc.len →
    (∀ k < s.lc.len.toNat, s.ibufByte k = s'.ibufByte k) →
    ∃ t t', exec i s = .next t ∧ exec i s' = .next t' ∧ t.result = t'.result

/-- R132, at the registers: what an encode command leaves in OBUF, copied to IBUF and run through the decode command
of the same variant, gives back the input. -/
def Obligations.RoundTripThroughTheBuffers : Prop :=
  ∀ (v : Variant) (s t : State), s.LatchFits → t.LatchFits →
    ∃ s', exec (Instr.ofFields .enc v) s = .next s' ∧
      (t.lc.len = s'.outLen → (∀ j < s'.outLen.toNat, t.ibufByte j = s'.obufByte j) →
        ∃ t', exec (Instr.ofFields .dec v) t = .next t' ∧ t.SucceededWith t' s.lc.len.toNat s.ibufByte)

/-- R132: the encoder's laws: round trip through the DEC command, re-encoding is not idempotent, and EncodeCore is
injective. -/
def Obligations.EncoderLaws : Prop :=
  (∀ (v : Variant) (n : Nat) (b : Nat → Byte) (t : State), t.LatchFits →
    t.lc.len.toNat = (encodeCore v n b).length →
    (∀ j < t.lc.len.toNat, t.ibufByte j = charAt (encodeCore v n b) j) →
    ∃ t', exec (Instr.ofFields .dec v) t = .next t' ∧ t.SucceededWith t' n b) ∧
  (∃ (v : Variant) (n : Nat) (b : Nat → Byte),
    encodeCore v (encodeCore v n b).length (charAt (encodeCore v n b)) ≠ encodeCore v n b) ∧
  (∀ (v : Variant) (n n' : Nat) (b b' : Nat → Byte), encodeCore v n b = encodeCore v n' b' →
    n = n' ∧ ∀ k < n, b k = b' k)

/-! ### The host window (20_memory.md, 10_state.md) -/

/-- R57, R20: what an aligned 32-bit read of each register returns, and 0 at every reserved offset. -/
def Obligations.RegisterReadsFollowTheMap : Prop :=
  ∀ s : State,
    s.memRead 0x000 4 = (0x42585858, false) ∧ s.memRead 0x004 4 = (0x00010000, false) ∧
    s.memRead 0x008 4 = (0, false) ∧ s.memRead 0x00C 4 = (s.inLen, false) ∧
    s.memRead 0x010 4 = (s.outLen, false) ∧
    (s.memRead 0x014 4).2 = false ∧ (s.memRead 0x014 4).1.toNat
      = 16 * s.status.errCode.toNat + 4 * s.status.ovr.toNat + 2 * s.status.done.toNat + s.status.busy.toNat ∧
    (s.memRead 0x018 4).2 = false ∧ (s.memRead 0x018 4).1.toNat = s.doneIe.toNat ∧
    s.memRead 0x01C 4 = (s.errPos, false) ∧
    s.memRead 0x020 4 = (BitVec.ofNat 32 s.params.ibufBytes, false) ∧
    s.memRead 0x024 4 = (BitVec.ofNat 32 s.params.obufBytes, false) ∧
    (∀ off : Offset, 0x028 ≤ off.toNat → off.toNat < 0x1000 → off.toNat % 4 = 0 → s.memRead off 4 = (0, false))

/-- R52: the register region takes aligned 32-bit accesses, and every other one gets a bus error with data 0 and no
effect. -/
def Obligations.RegisterRegionTakesOnlyAlignedWords : Prop :=
  ∀ (s : State) (off : Offset) (n : Nat) (v : Word), off.toNat < 0x1000 →
    (n = 4 ∧ off.toNat % 4 = 0 → (s.memRead off n).2 = false ∧ (s.memWrite off n v).2 = false) ∧
    (¬(n = 4 ∧ off.toNat % 4 = 0) → s.memRead off n = (0, true) ∧ s.memWrite off n v = (s, true))

/-- R53: a buffer access may be 1, 2 or 4 bytes wide and must be naturally aligned: inside the range of an idle block it
is answered, and any other size or alignment gets a bus error, inside the range too, and has no effect. -/
def Obligations.BufferAccessesAreNaturallyAligned : Prop :=
  ∀ (s : State) (off : Offset) (n : Nat) (v : Word), 0x1000 ≤ off.toNat →
    (¬((n = 1 ∨ n = 2 ∨ n = 4) ∧ off.toNat % n = 0) →
      s.memRead off n = (0, true) ∧ s.memWrite off n v = (s, true)) ∧
    ((n = 1 ∨ n = 2 ∨ n = 4) ∧ off.toNat % n = 0 → s.status.busy = false →
      (off.toNat < 0x2000 → off.toNat - 0x1000 + n ≤ s.params.ibufBytes →
        (s.memRead off n).2 = false ∧ (s.memWrite off n v).2 = false) ∧
      (0x2000 ≤ off.toNat → off.toNat - 0x2000 + n ≤ s.params.obufBytes → (s.memRead off n).2 = false))

/-- R61: while BUSY = 1 every access to a buffer window gets a bus error and has no effect, and register accesses are
allowed. -/
def Obligations.BuffersAreShutWhileBusy : Prop :=
  ∀ (s : State) (off : Offset) (n : Nat) (v : Word), s.status.busy = true →
    (0x1000 ≤ off.toNat → s.memRead off n = (0, true) ∧ s.memWrite off n v = (s, true)) ∧
    (off.toNat < 0x1000 → off.toNat % 4 = 0 → (s.memRead off 4).2 = false ∧ (s.memWrite off 4 v).2 = false)

/-- R62: an access that reaches past the end of a buffer gets a bus error and has no effect; with the default
parameters no aligned access does, and an idle block answers it. -/
def Obligations.AccessesPastABufferAreBusErrors : Prop :=
  ∀ (s : State) (off : Offset) (n : Nat) (v : Word),
    (0x1000 ≤ off.toNat → off.toNat < 0x2000 → s.params.ibufBytes < off.toNat - 0x1000 + n →
      s.memRead off n = (0, true) ∧ s.memWrite off n v = (s, true)) ∧
    (0x2000 ≤ off.toNat → s.params.obufBytes < off.toNat - 0x2000 + n →
      s.memRead off n = (0, true) ∧ s.memWrite off n v = (s, true)) ∧
    (s.params = Params.default → s.status.busy = false → n = 1 ∨ n = 2 ∨ n = 4 → off.toNat % n = 0 →
      0x1000 ≤ off.toNat → (s.memRead off n).2 = false)

/-- R60: every host write to the OBUF window gets a bus error and changes nothing; no host transaction changes OBUF. -/
def Obligations.HostNeverWritesObuf : Prop :=
  (∀ (s : State) (off : Offset) (n : Nat) (v : Word), 0x2000 ≤ off.toNat → s.memWrite off n v = (s, true)) ∧
  (∀ (s : State) (t : Transaction), (s.transact t).obuf = s.obuf)

/-- R54, R56: an aligned write inside IBUF of an idle block puts v[8b+7:8b] at byte b and changes nothing else; each
byte, and the whole value, read back as written. -/
def Obligations.IbufReadsBackAsWritten : Prop :=
  ∀ (s : State) (off : Offset) (n : Nat) (v : Word), s.status.busy = false → n = 1 ∨ n = 2 ∨ n = 4 →
    off.toNat % n = 0 → 0x1000 ≤ off.toNat → off.toNat < 0x2000 → off.toNat - 0x1000 + n ≤ s.params.ibufBytes →
    ∃ s', s.memWrite off n v = (s', false) ∧
      (∀ b < n, s'.ibufByte (off.toNat - 0x1000 + b) = v.extractLsb' (8 * b) 8 ∧
        s'.memRead (off + BitVec.ofNat 14 b) 1 = ((v.extractLsb' (8 * b) 8).zeroExtend 32, false)) ∧
      (∀ k, k < off.toNat - 0x1000 ∨ off.toNat - 0x1000 + n ≤ k → s'.ibufByte k = s.ibufByte k) ∧
      s' = { s with ibuf := s'.ibuf } ∧
      s'.memRead off n = (BitVec.ofNat 32 (v.toNat % 2 ^ (8 * n)), false)

/-- R54, R55: an aligned read inside OBUF of an idle block composes its bytes little-endian. -/
def Obligations.ObufReadsAreLittleEndian : Prop :=
  ∀ (s : State) (off : Offset), s.status.busy = false → 0x2000 ≤ off.toNat →
    (off.toNat - 0x2000 + 1 ≤ s.params.obufBytes →
      s.memRead off 1 = ((s.obufByte (off.toNat - 0x2000)).zeroExtend 32, false)) ∧
    (off.toNat % 2 = 0 → off.toNat - 0x2000 + 2 ≤ s.params.obufBytes →
      s.memRead off 2 = ((s.obufByte (off.toNat - 0x2000 + 1) ++ s.obufByte (off.toNat - 0x2000)).zeroExtend 32,
        false)) ∧
    (off.toNat % 4 = 0 → off.toNat - 0x2000 + 4 ≤ s.params.obufBytes →
      s.memRead off 4 = (s.obufByte (off.toNat - 0x2000 + 3) ++ s.obufByte (off.toNat - 0x2000 + 2)
        ++ s.obufByte (off.toNat - 0x2000 + 1) ++ s.obufByte (off.toNat - 0x2000), false))

/-- R14, R56: a read with a bus error returns 0 and a write with a bus error has no effect; R63: a read changes
nothing but what the host has been told. -/
def Obligations.BusErrorsAndReadsHaveNoEffect : Prop :=
  ∀ (s : State) (off : Offset) (n : Nat) (v : Word),
    ((s.memRead off n).2 = true → (s.memRead off n).1 = 0) ∧
    ((s.memWrite off n v).2 = true → (s.memWrite off n v).1 = s) ∧
    s.transact (.read off n)
      = { s with replies := .read (s.memRead off n).1 (s.memRead off n).2 :: s.replies }

/-- R58, R59: what a 32-bit write to each register does; every read-only or reserved offset ignores it without a bus
error. -/
def Obligations.RegisterWritesFollowTheMap : Prop :=
  ∀ (s : State) (v : Word),
    s.memWrite 0x008 4 v = (s.cmdWrite v, false) ∧
    s.memWrite 0x00C 4 v = ({ s with inLen := v }, false) ∧
    s.memWrite 0x014 4 v = ({ s with status := { s.status with
      done := s.status.done && !v.getLsbD 1, ovr := s.status.ovr && !v.getLsbD 2 } }, false) ∧
    s.memWrite 0x018 4 v = ({ s with doneIe := v.getLsbD 0 }, false) ∧
    (∀ off : Offset, off.toNat < 0x1000 → off.toNat % 4 = 0 → off ∉ [0x008, 0x00C, 0x014, 0x018] →
      s.memWrite off 4 v = (s, false))

/-! ### The CMD write (43_command_lifecycle.md) -/

/-- R171: a CMD write while BUSY = 1, legal or illegal, sets OVR and changes nothing else. -/
def Obligations.CmdWriteWhileBusyOnlySetsOverrun : Prop :=
  ∀ (s : State) (w : Word), s.status.busy = true →
    s.memWrite 0x008 4 w = ({ s with status := { s.status with ovr := true } }, false)

/-- R172: an illegal word written while BUSY = 0 completes at once as a BadCommand, and irq rises if enabled. -/
def Obligations.IllegalWordIsABadCommand : Prop :=
  ∀ (s : State) (w : Word), s.status.busy = false → 10 ≤ w.toNat →
    ∃ t, s.memWrite 0x008 4 w = (t, false) ∧
      t = { s with outLen := 0, errPos := 0xFFFFFFFF, status := { s.status with done := true, errCode := 4 } } ∧
      t.irq = s.doneIe

/-- R173: a legal word written while BUSY = 0 with IN_LEN > P_IBUF_BYTES (unsigned) is a BadCommand as well, with the
same effects. -/
def Obligations.OversizedLengthIsABadCommand : Prop :=
  ∀ (s : State) (i : Instr), s.status.busy = false → s.params.ibufBytes < s.inLen.toNat →
    ∃ t, s.memWrite 0x008 4 (encode i) = (t, false) ∧
      t = { s with outLen := 0, errPos := 0xFFFFFFFF, status := { s.status with done := true, errCode := 4 } } ∧
      t.irq = s.doneIe

/-- R174: a legal word written while BUSY = 0 with IN_LEN ≤ P_IBUF_BYTES is accepted. -/
def Obligations.LegalWordIsAccepted : Prop :=
  ∀ (s : State) (i : Instr), s.status.busy = false → s.inLen.toNat ≤ s.params.ibufBytes →
    s.memWrite 0x008 4 (encode i)
      = ({ s with
          lc := { op := i.op, variant := i.variant, len := s.inLen }
          outLen := 0
          errPos := 0xFFFFFFFF
          status := { busy := true, done := false, ovr := s.status.ovr, errCode := 0 } }, false)

/-- R177: what the host reads while a command runs. -/
def Obligations.ReadsWhileBusyShowNoResult : Prop :=
  ∀ s : State, s.Inv → s.status.busy = true →
    (s.memRead 0x014 4).2 = false ∧ (s.memRead 0x014 4).1.toNat = 1 + 4 * s.status.ovr.toNat ∧
    s.memRead 0x010 4 = (0, false) ∧ s.memRead 0x01C 4 = (0xFFFFFFFF, false) ∧ s.memRead 0x00C 4 = (s.inLen, false) ∧
    s.memRead 0x000 4 = (0x42585858, false) ∧ s.memRead 0x004 4 = (0x00010000, false) ∧
    s.memRead 0x008 4 = (0, false) ∧ s.memRead 0x018 4 = ((BitVec.ofBool s.doneIe).zeroExtend 32, false) ∧
    s.memRead 0x020 4 = (BitVec.ofNat 32 s.params.ibufBytes, false) ∧
    s.memRead 0x024 4 = (BitVec.ofNat 32 s.params.obufBytes, false) ∧
    (∀ (off : Offset) (n : Nat), 0x1000 ≤ off.toNat → s.memRead off n = (0, true))

/-- R178, R67, R71: no host transaction disturbs a running command: while BUSY = 1 it leaves LC, the buffers and every
byte read from them, BUSY and the result registers as they are. An unwritten byte keeps its draw by item I1 of
93_implementation_defined.md (log entry 6). -/
def Obligations.TransactionsLeaveARunningCommandAlone : Prop :=
  ∀ (s : State) (t : Transaction), s.status.busy = true → s.status.done = false →
    (s.transact t).lc = s.lc ∧ (s.transact t).ibuf = s.ibuf ∧ (s.transact t).obuf = s.obuf ∧
    (s.transact t).ibufByte = s.ibufByte ∧ (s.transact t).obufByte = s.obufByte ∧
    (s.transact t).outLen = s.outLen ∧ (s.transact t).errPos = s.errPos ∧
    (s.transact t).status.busy = true ∧ (s.transact t).status.done = false ∧
    (s.transact t).status.errCode = s.status.errCode

/-! ### The interrupt (60_exceptions.md) -/

/-- R206, R207: irq is DONE and DONE_IE: every completion and every BadCommand raises it exactly if enabled; clearing
DONE, masking, acceptance drop it; enabling it with DONE pending raises it at once; OVR alone raises nothing. -/
def Obligations.InterruptFollowsDoneAndItsEnable : Prop :=
  (∀ s : State, s.irq = (s.status.done && s.doneIe)) ∧
  (∀ (i : Instr) (s : State), ∃ t, exec i s = .next t ∧ t.irq = s.doneIe) ∧
  (∀ (s : State) (v : Word), v.getLsbD 1 = true →
    (s.memWrite 0x014 4 v).1.status.done = false ∧ (s.memWrite 0x014 4 v).1.irq = false) ∧
  (∀ (s : State) (v : Word), (s.memWrite 0x018 4 v).1.irq = (s.status.done && v.getLsbD 0) ∧
    (s.memWrite 0x018 4 v).1.status.done = s.status.done) ∧
  (∀ (s : State) (i : Instr), s.status.busy = false → s.inLen.toNat ≤ s.params.ibufBytes →
    (s.memWrite 0x008 4 (encode i)).1.status.done = false ∧ (s.memWrite 0x008 4 (encode i)).1.irq = false) ∧
  (∀ (s : State) (w : Word), s.status.busy = true → (s.memWrite 0x008 4 w).1.irq = s.irq)

/-! ### The step (00_scope.md R12, 43_command_lifecycle.md R175 to R181) -/

/-- R175: with BUSY = 1 at the Engine's turn, or with no event left, the step runs the command in LC. -/
def Obligations.EngineTurnRunsTheLatchedCommand : Prop :=
  ∀ (s : State) (rest : List Event), s.status.busy = true → s.agenda = [] ∨ s.agenda = .engine :: rest →
    step s = exec (Instr.ofFields s.lc.op s.lc.variant) { s with agenda := s.agenda.tail, tick := s.tick + 1 }

/-- R174, R175: a word that decodes to i, written to CMD of an idle block with a length that fits, is accepted by that
step, and the Engine's turn after it runs exactly i on the sampled length and the bytes IBUF held (an unwritten byte
keeps its draw by item I1 of 93_implementation_defined.md, log entry 6). -/
def Obligations.WrittenWordRunsAtTheEnginesTurn : Prop :=
  ∀ (s : State) (w : Word) (i : Instr) (rest : List Event), s.status.busy = false →
    s.inLen.toNat ≤ s.params.ibufBytes → decode w = .ok i →
    s.agenda = .host (.write 0x008 4 w) :: .engine :: rest →
    ∃ u, step s = .next u ∧ u.status.busy = true ∧ u.lc.len = s.inLen ∧ u.ibuf = s.ibuf ∧ u.ibufByte = s.ibufByte ∧
      step u = exec i { u with agenda := rest, tick := u.tick + 1 }

/-- The model's own loader (log entry 2): after withFetchWord the very next step runs the decoded command on the
current IN_LEN. -/
def Obligations.PlacedWordRunsInTheNextStep : Prop :=
  ∀ (s : State) (nbits w : Nat) (i : Instr), decodeTableWord nbits w = some i →
    (s.withFetchWord nbits w).lc.len = s.inLen ∧
    step (s.withFetchWord nbits w)
      = exec i { s.withFetchWord nbits w with agenda := s.agenda, tick := s.tick + 1 }

/-- R181: while BUSY = 0 the Engine has no step: its turn changes no state of the block, and with no event left the
block stays as it is. -/
def Obligations.IdleEngineHasNoStep : Prop :=
  ∀ s : State, s.status.busy = false →
    (s.agenda = [] → step s = .next s) ∧
    (∀ rest, s.agenda = .engine :: rest → step s = .next { s with agenda := rest, tick := s.tick + 1 })

/-- 93_implementation_defined.md, "No behaviour of this block is `stuck`": every step gives a next state. -/
def Obligations.EveryStepGivesANextState : Prop :=
  ∀ s : State, ∃ t, step s = .next t

/-- R180: an accepted command is completed: unless a reset comes, after at most as many steps as there are events,
during which LC, IBUF and every byte read from IBUF (R64), written or not, stay as they are, the Engine's step runs the
command and sets DONE. The agenda is the model's form of fairness (log entry 1), and an unwritten byte keeps its draw by
item I1 of 93_implementation_defined.md (log entry 6). -/
def Obligations.AcceptedCommandIsCompleted : Prop :=
  ∀ s : State, s.status.busy = true → s.NoReset →
    ∃ k ≤ s.agenda.length, ∃ u t, Sys2Proof.core.run k s = .next u ∧ u.status.busy = true ∧
      u.lc = s.lc ∧ u.ibuf = s.ibuf ∧ u.ibufByte = s.ibufByte ∧
      step u = exec (Instr.ofFields s.lc.op s.lc.variant) u.advance ∧ step u = .next t ∧
      t.status.busy = false ∧ t.status.done = true

/-! ### Whole-machine rules (10_state.md) -/

/-- The model's reset state meets the invariant. It rests on log entries 4 to 7 (default parameters, LC, nothing
written). -/
def Obligations.InvariantHoldsAtReset : Prop := State.reset.Inv

/-- R46: every step keeps the invariant, from every state that meets it. Its clause on ERR_POS reads the length of the
command that completed from LC, which keeps it by the model's choice (log entry 16). -/
def Obligations.EveryStepKeepsTheInvariant : Prop :=
  ∀ s t : State, s.Inv → step s = .next t → t.Inv

/-- R27: BUSY rises only in an accepting CMD write, and falls only at the Engine's step or a reset. -/
def Obligations.BusyChangesOnlyAtAcceptanceAndCompletion : Prop :=
  ∀ s t : State, step s = .next t →
    (s.status.busy = false → t.status.busy = true →
      ∃ (w : Word) (i : Instr) (rest : List Event), s.agenda = .host (.write 0x008 4 w) :: rest ∧ decode w = .ok i ∧
        s.inLen.toNat ≤ s.params.ibufBytes ∧ t.lc = { op := i.op, variant := i.variant, len := s.inLen }) ∧
    (s.status.busy = true → t.status.busy = false →
      s.agenda = [] ∨ (∃ rest, s.agenda = .engine :: rest) ∨ ∃ e rest, s.agenda = e :: rest ∧ e.isReset = true)

/-- R28: DONE falls only by a STATUS write with bit 1, by an acceptance, or by a reset; it rises only at a completion:
the Engine's step, or the CMD write of a BadCommand. -/
def Obligations.DoneChangesOnlyWhereItsRuleSays : Prop :=
  ∀ s t : State, step s = .next t →
    (s.status.done = true → t.status.done = false →
      (∃ (v : Word) (rest : List Event), s.agenda = .host (.write 0x014 4 v) :: rest ∧ v.getLsbD 1 = true) ∨
      (∃ (w : Word) (rest : List Event), s.agenda = .host (.write 0x008 4 w) :: rest ∧ t.status.busy = true) ∨
      (∃ e rest, s.agenda = e :: rest ∧ e.isReset = true)) ∧
    (s.status.done = false → t.status.done = true →
      (s.status.busy = true ∧ (s.agenda = [] ∨ ∃ rest, s.agenda = .engine :: rest)) ∨
      (∃ (w : Word) (rest : List Event), s.agenda = .host (.write 0x008 4 w) :: rest ∧ t.status.errCode = 4))

/-- R29: OVR rises only by a CMD write while BUSY = 1, and falls only by a STATUS write with bit 2 or a reset. -/
def Obligations.OverrunChangesOnlyWhereItsRuleSays : Prop :=
  ∀ s t : State, step s = .next t →
    (s.status.ovr = true → t.status.ovr = false →
      (∃ (v : Word) (rest : List Event), s.agenda = .host (.write 0x014 4 v) :: rest ∧ v.getLsbD 2 = true) ∨
      (∃ e rest, s.agenda = e :: rest ∧ e.isReset = true)) ∧
    (s.status.ovr = false → t.status.ovr = true →
      s.status.busy = true ∧ ∃ (w : Word) (rest : List Event), s.agenda = .host (.write 0x008 4 w) :: rest)

/-- R37, R38, R60, R64: only the Engine's step of a running command and a reset change OBUF, only a host write to the
IBUF window of an idle block and a reset change IBUF, and nothing changes the parameters. -/
def Obligations.EachBufferHasOneWriter : Prop :=
  ∀ s t : State, step s = .next t →
    t.params = s.params ∧
    (t.obuf ≠ s.obuf →
      (s.status.busy = true ∧ (s.agenda = [] ∨ ∃ rest, s.agenda = .engine :: rest)) ∨
      (∃ e rest, s.agenda = e :: rest ∧ e.isReset = true)) ∧
    (t.ibuf ≠ s.ibuf →
      (s.status.busy = false ∧ ∃ (off : Offset) (n : Nat) (v : Word) (rest : List Event),
        s.agenda = .host (.write off n v) :: rest ∧ 0x1000 ≤ off.toNat ∧ off.toNat < 0x2000) ∨
      (∃ e rest, s.agenda = e :: rest ∧ e.isReset = true))

/-! ### Reset (70_reset_and_hazards.md) -/

/-- R231, at the model's reset state, read through the window. The sizes are the default parameters (log entry 4). -/
def Obligations.ResetRegistersReadAsSpecified : Prop :=
  [0x000, 0x004, 0x008, 0x00C, 0x010, 0x014, 0x018, 0x01C, 0x020, 0x024].map (fun off => State.reset.memRead off 4)
    = [(0x42585858, false), (0x00010000, false), (0, false), (0, false), (0, false), (0, false), (0, false),
      (0xFFFFFFFF, false), (0x00001000, false), (0x00002000, false)] ∧
  State.reset.irq = false

/-- R231 to R233: a reset at any time, a running command included, sets every register to its reset value, drops irq,
reports no completion, and leaves no buffer byte known. That the number of the draws moves on is the model's form of the
new draws (log entry 6). That the same holds of a reset with a transaction in flight is the model's choice: R235 leaves
the outcome of that transaction unspecified, and log entry 10 follows item I6 of 93_implementation_defined.md. -/
def Obligations.ResetStepRestoresTheResetValues : Prop :=
  ∀ (s : State) (e : Event) (rest : List Event), s.agenda = e :: rest → e.isReset = true →
    ∃ t, step s = .next t ∧
      t.status = { busy := false, done := false, ovr := false, errCode := 0 } ∧
      t.inLen = 0 ∧ t.outLen = 0 ∧ t.doneIe = false ∧ t.errPos = 0xFFFFFFFF ∧ t.irq = false ∧
      t.params = s.params ∧ t.agenda = rest ∧
      (∀ k, t.ibuf.get? k = none) ∧ (∀ j, t.obuf.get? j = none) ∧ t.resets = s.resets + 1

/-- R37, R38 with item I1 of 93_implementation_defined.md (each byte's draw is made once at reset and stable until
written; log entry 6 follows it): over a step that is no reset, a byte read from IBUF, written or not, changes only by
an accepted host write that covers it, and a byte read from OBUF only at the Engine's step of a running command. -/
def Obligations.BufferBytesAreStableUntilWritten : Prop :=
  ∀ s t : State, step s = .next t → (∀ e rest, s.agenda = e :: rest → e.isReset = false) →
    (∀ k, t.ibufByte k ≠ s.ibufByte k → s.status.busy = false ∧ ∃ (off : Offset) (n : Nat) (v : Word) (rest : List Event),
      s.agenda = .host (.write off n v) :: rest ∧ 0x1000 ≤ off.toNat ∧ off.toNat < 0x2000 ∧
      off.toNat - 0x1000 ≤ k ∧ k < off.toNat - 0x1000 + n) ∧
    (∀ j, t.obufByte j ≠ s.obufByte j →
      s.status.busy = true ∧ (s.agenda = [] ∨ ∃ rest, s.agenda = .engine :: rest))
end

