-- ==== Sys2Proof/Laws/Codec.lean ====
section
/-! SUPPORT. One lemma for each function of the codec: the tables' lengths and the two lookups, the shape of a group,
the length and the characters of EncodeCore, the padding run, the first invalid character, and what DecodeCore answers
in each case. -/

namespace Sys2Proof.Machine

/-! ### The constant tables (00_scope.md R6) -/

theorem gIn_pos (v : Variant) : 0 < gIn v := by cases v <;> decide

theorem gOut_pos (v : Variant) : 0 < gOut v := by cases v <;> decide

theorem bits_per_group (v : Variant) : 8 * gIn v = width v * gOut v := by cases v <;> decide

theorem gIn_le_gOut (v : Variant) : gIn v ≤ gOut v := by cases v <;> decide

theorem padMax_lt_gOut (v : Variant) : padMax v < gOut v := by cases v <;> decide

theorem sigSymbols_le (v : Variant) (k : Nat) : sigSymbols v k ≤ gOut v := by
  cases v <;> simp only [sigSymbols, gOut] <;> (try split_ifs) <;> omega

theorem groupSymbols_le (v : Variant) (k : Nat) : groupSymbols v k ≤ gOut v := by
  unfold groupSymbols
  split_ifs
  · exact le_rfl
  · exact sigSymbols_le v k

theorem tailBytes_lt (v : Variant) (s k : Nat) (h : tailBytes v s = some k) : 0 < k ∧ k < gIn v ∧ k < s ∧ s < gOut v := by
  cases v <;> simp only [tailBytes] at h <;> (try cases h) <;> split_ifs at h <;> simp only [gIn, gOut] <;>
    (injection h; omega)

/-! ### The alphabets (40_alphabet.md) -/

theorem alphabet_length (v : Variant) : (alphabet v).length = 2 ^ width v := by cases v <;> rfl

/-- `indexFrom` gives an index exactly where the byte first stands. -/
theorem indexFrom_some (c : Byte) : ∀ (l : List Byte) (t u : Nat), indexFrom c t l = some u →
    t ≤ u ∧ l[u - t]? = some c := by
  intro l
  induction l with
  | nil => intro t u h; cases h
  | cons x xs ih =>
    intro t u h
    unfold indexFrom at h
    split_ifs at h with hx
    · cases h; simp [hx]
    · obtain ⟨h1, h2⟩ := ih _ _ h
      refine ⟨by omega, ?_⟩
      rw [show u - t = (u - (t + 1)) + 1 by omega, List.getElem?_cons_succ]
      exact h2

theorem indexFrom_none (c : Byte) : ∀ (l : List Byte) (t : Nat), indexFrom c t l = none ↔ c ∉ l := by
  intro l
  induction l with
  | nil => intro t; simp [indexFrom]
  | cons x xs ih =>
    intro t
    unfold indexFrom
    split_ifs with hx
    · simp [hx]
    · rw [ih, List.mem_cons, not_or]
      exact ⟨fun h => ⟨fun e => hx e.symm, h⟩, fun h => h.2⟩

/-- The inverse lookup answers a value of W bits that the table maps back to the byte (R107). -/
theorem symbolOf_valueOf (v : Variant) (c : Byte) (t : Nat) (h : valueOf v c = some t) :
    t < 2 ^ width v ∧ symbolOf v t = c := by
  obtain ⟨-, h⟩ := indexFrom_some c (alphabet v) 0 t h
  simp only [Nat.sub_zero] at h
  obtain ⟨h1, h2⟩ := List.getElem?_eq_some_iff.mp h
  exact ⟨alphabet_length v ▸ h1, by simp [symbolOf, List.getD, h]⟩

/-- Every symbol of the alphabet is found again by the inverse lookup (R100, R107). -/
theorem valueOf_symbolOf (v : Variant) (t : Nat) (h : t < 2 ^ width v) : valueOf v (symbolOf v t) = some t := by
  have all : ∀ v : Variant, ∀ t < 2 ^ width v, valueOf v (symbolOf v t) = some t := by
    intro v; cases v <;> decide +kernel
  exact all v t h

theorem symbolOf_ne_pad (v : Variant) (t : Nat) (h : t < 2 ^ width v) : symbolOf v t ≠ padChar := by
  have all : ∀ v : Variant, ∀ t < 2 ^ width v, symbolOf v t ≠ padChar := by
    intro v; cases v <;> decide +kernel
  exact all v t h

theorem valueOf_pad (v : Variant) : valueOf v padChar = none := by cases v <;> decide +kernel

theorem valueOf_lt (v : Variant) (c : Byte) : (valueOf v c).getD 0 < 2 ^ width v := by
  cases h : valueOf v c with
  | none => simp
  | some t => simpa using (symbolOf_valueOf v c t h).1

/-! ### Lists of groups -/

theorem length_flatMap_range {α : Type} (f : Nat → List α) (c n : Nat) (hf : ∀ g < n, (f g).length = c) :
    ((List.range n).flatMap f).length = n * c := by
  induction n with
  | zero => simp
  | succ n ih =>
    rw [List.range_succ, List.flatMap_append, List.length_append, ih fun g hg => hf g (by omega),
      List.flatMap_singleton, hf n (by omega), Nat.succ_mul]

/-- Element j of n groups, all of length c but perhaps the last, is element j mod c of group j div c. -/
theorem getElem?_flatMap_range {α : Type} (f : Nat → List α) (c : Nat) (hc : 0 < c) :
    ∀ (n : Nat), (∀ g, g + 1 < n → (f g).length = c) → ∀ j, j / c < n →
      ((List.range n).flatMap f)[j]? = (f (j / c))[j % c]? := by
  intro n
  induction n with
  | zero => exact fun _ j hj => absurd hj (Nat.not_lt_zero _)
  | succ n ih =>
    intro hf j hj
    have hlen : ((List.range n).flatMap f).length = n * c := length_flatMap_range f c n fun g hg => hf g (by omega)
    rw [List.range_succ, List.flatMap_append, List.flatMap_singleton]
    have hdiv := Nat.div_add_mod j c
    have hmod := Nat.mod_lt j hc
    by_cases h : j / c < n
    · have hlt : j < n * c := (Nat.div_lt_iff_lt_mul hc).mp h
      rw [List.getElem?_append_left (by omega)]
      exact ih (fun g hg => hf g (by omega)) j h
    · have he : j / c = n := by omega
      have hj : j = n * c + j % c := by rw [← he, Nat.mul_comm]; exact hdiv.symm
      rw [List.getElem?_append_right (by omega), hlen, he]
      congr 1
      omega

/-! ### EncodeCore (41_encode.md R120) -/

@[simp] theorem encodeGroup_length (v : Variant) (k : Nat) (b : Nat → Byte) : (encodeGroup v k b).length = gOut v := by
  have := groupSymbols_le v k
  simp [encodeGroup]
  omega

theorem encodeCore_length (v : Variant) (n : Nat) (b : Nat → Byte) :
    (encodeCore v n b).length = ceilDiv n (gIn v) * gOut v :=
  length_flatMap_range _ _ _ fun _ _ => encodeGroup_length ..

/-- Character t of a group: a symbol among the first `groupSymbols`, padding after them. -/
theorem encodeGroup_getElem? (v : Variant) (k : Nat) (b : Nat → Byte) (t : Nat) (ht : t < gOut v) :
    (encodeGroup v k b)[t]? = some (if t < groupSymbols v k
      then symbolOf v (bitWindow (8 * gIn v) (width v) t (groupValue v k b)) else padChar) := by
  have := groupSymbols_le v k
  unfold encodeGroup
  by_cases h : t < groupSymbols v k
  · rw [List.getElem?_append_left (by simpa using h)]
    simp [h]
  · rw [List.getElem?_append_right (by simpa using h), if_neg h, List.getElem?_replicate, if_pos (by simp; omega)]

/-- Character j of the encoded text is character j mod G_out of group j div G_out. -/
theorem encodeCore_getElem? (v : Variant) (n : Nat) (b : Nat → Byte) (j : Nat) (hj : j / gOut v < ceilDiv n (gIn v)) :
    (encodeCore v n b)[j]? = (encodeGroup v (min (gIn v) (n - j / gOut v * gIn v))
      fun i => b (j / gOut v * gIn v + i))[j % gOut v]? :=
  getElem?_flatMap_range _ _ (gOut_pos v) _ (fun _ _ => encodeGroup_length ..) j hj

/-! ### The checks of DecodeCore (42_decode.md R141 to R147) -/

theorem padRun_le (c : Nat → Byte) (l : Nat) : padRun c l ≤ l := by
  induction l with
  | zero => exact le_rfl
  | succ l ih => unfold padRun; split_ifs <;> omega

/-- `padRun` is the length of the trailing run (R144). -/
theorem endsInPadding_padRun (c : Nat → Byte) (l : Nat) : EndsInPadding c l (padRun c l) := by
  induction l with
  | zero => exact ⟨le_rfl, fun i hi => absurd hi (by omega), fun h => absurd h (by simp [padRun])⟩
  | succ l ih =>
    obtain ⟨h1, h2, h3⟩ := ih
    unfold padRun
    split_ifs with hc
    · refine ⟨by omega, fun i hi hle => ?_, fun h => ?_⟩
      · by_cases he : i = l
        · exact he ▸ hc
        · exact h2 i (by omega) (by omega)
      · rw [show l + 1 - (padRun c l + 1) - 1 = l - padRun c l - 1 by omega]
        exact h3 (by omega)
    · exact ⟨by omega, fun i hi hle => by omega, fun _ => hc⟩

/-- The trailing run has one length. -/
theorem EndsInPadding.eq_padRun {c : Nat → Byte} {l p : Nat} (h : EndsInPadding c l p) : padRun c l = p := by
  obtain ⟨h1, h2, h3⟩ := h
  obtain ⟨r1, r2, r3⟩ := endsInPadding_padRun c l
  rcases Nat.lt_trichotomy (padRun c l) p with hlt | heq | hgt
  · exact absurd (h2 _ (by omega) (by omega)) (r3 (by omega))
  · exact heq
  · exact absurd (r2 _ (by omega) (by omega)) (h3 (by omega))

theorem firstInvalid_none (v : Variant) (c : Nat → Byte) (m : Nat) :
    firstInvalid v c m = none ↔ ∀ i < m, (valueOf v (c i)).isSome := by
  simp [firstInvalid, List.find?_eq_none, Option.isSome_iff_ne_none]

theorem firstInvalid_some (v : Variant) (c : Nat → Byte) (m i : Nat) :
    firstInvalid v c m = some i ↔ i < m ∧ valueOf v (c i) = none ∧ ∀ j < i, (valueOf v (c j)).isSome := by
  unfold firstInvalid
  rw [List.find?_range_eq_some]
  simp only [List.mem_range, Option.isNone_iff_eq_none, Bool.not_eq_true', Option.isNone_eq_false_iff]
  exact ⟨fun h => ⟨h.2.1, h.1, h.2.2⟩, fun h => ⟨h.2.1, h.1, h.2.2⟩⟩

/-! ### DecodeCore by cases (42_decode.md R140, 60_exceptions.md R204) -/

theorem decodeCore_zero (v : Variant) (c : Nat → Byte) : decodeCore v 0 c = .ok [] := rfl

theorem decodeCore_length_error (v : Variant) (l : Nat) (c : Nat → Byte) (h : l % gOut v ≠ 0) :
    decodeCore v l c = .err .invalidLength := by
  have : l ≠ 0 := by rintro rfl; simp at h
  simp [decodeCore, this, h]

theorem decodeCore_padding_error (v : Variant) (l p : Nat) (c : Nat → Byte) (hl : l % gOut v = 0)
    (hp : EndsInPadding c l p) (hbad : padMax v < p ∨ 0 < p ∧ tailBytes v (gOut v - p) = none) :
    decodeCore v l c = .err .invalidPaddingCount := by
  have hr := hp.eq_padRun
  have : l ≠ 0 := by have := hp.1; rintro rfl; omega
  unfold decodeCore
  rw [if_neg this, if_neg (by omega), hr]
  by_cases h : padMax v < p
  · rw [if_pos h]
  · rw [if_neg h, if_pos (hbad.resolve_left h)]

/-- With length and padding in order, the lookup decides (R147, R148). -/
theorem decodeCore_of_checks (v : Variant) (l p : Nat) (c : Nat → Byte) (hl : l % gOut v = 0)
    (hp : EndsInPadding c l p) (hle : p ≤ padMax v) (ht : p = 0 ∨ tailBytes v (gOut v - p) ≠ none) :
    decodeCore v l c = match firstInvalid v c (l - p) with
      | some i => .err (.invalidCharacter i)
      | none => .ok (unpack v l p c) := by
  have hr := hp.eq_padRun
  unfold decodeCore
  by_cases h0 : l = 0
  · subst h0
    have : p = 0 := by have := hp.1; omega
    subst this
    simp [firstInvalid, unpack]
  · rw [if_neg h0, if_neg (by omega), hr, if_neg (by omega),
      if_neg fun h => ht.elim (fun h0 => absurd h.1 (by omega)) fun hn => hn h.2]
    all_goals (cases firstInvalid v c (l - p) <;> rfl)

/-- What DecodeCore answers, read backwards: the four cases of R204, and success. -/
theorem decodeCore_cases (v : Variant) (l : Nat) (c : Nat → Byte) :
    (l % gOut v ≠ 0 ∧ decodeCore v l c = .err .invalidLength) ∨
    (l % gOut v = 0 ∧ ∃ p, EndsInPadding c l p ∧
      (((padMax v < p ∨ 0 < p ∧ tailBytes v (gOut v - p) = none) ∧ decodeCore v l c = .err .invalidPaddingCount) ∨
      (p ≤ padMax v ∧ (p = 0 ∨ tailBytes v (gOut v - p) ≠ none) ∧
        ((∃ i, firstInvalid v c (l - p) = some i ∧ decodeCore v l c = .err (.invalidCharacter i)) ∨
        (firstInvalid v c (l - p) = none ∧ decodeCore v l c = .ok (unpack v l p c)))))) := by
  by_cases hl : l % gOut v = 0
  · refine .inr ⟨hl, padRun c l, endsInPadding_padRun c l, ?_⟩
    by_cases hb : padMax v < padRun c l ∨ 0 < padRun c l ∧ tailBytes v (gOut v - padRun c l) = none
    · exact .inl ⟨hb, decodeCore_padding_error v l _ c hl (endsInPadding_padRun c l) hb⟩
    · have hle : padRun c l ≤ padMax v := by omega
      have ht : padRun c l = 0 ∨ tailBytes v (gOut v - padRun c l) ≠ none := by
        by_cases h0 : padRun c l = 0
        · exact .inl h0
        · exact .inr fun h => hb (.inr ⟨by omega, h⟩)
      have he := decodeCore_of_checks v l _ c hl (endsInPadding_padRun c l) hle ht
      refine .inr ⟨hle, ht, ?_⟩
      cases hf : firstInvalid v c (l - padRun c l) with
      | none => rw [hf] at he; exact .inr ⟨rfl, he⟩
      | some i => rw [hf] at he; exact .inl ⟨i, rfl, he⟩
  · exact .inl ⟨hl, decodeCore_length_error v l c hl⟩

/-! ### The unpacker (42_decode.md R148) -/

@[simp] theorem decodeGroup_length (v : Variant) (s : Nat) (c : Nat → Byte) :
    (decodeGroup v s c).length = groupBytes v s := by simp [decodeGroup]

theorem groupBytes_full (v : Variant) : groupBytes v (gOut v) = gIn v := by simp [groupBytes]

theorem decodeGroup_getElem? (v : Variant) (s : Nat) (c : Nat → Byte) (j : Nat) (hj : j < groupBytes v s) :
    (decodeGroup v s c)[j]? = some (BitVec.ofNat 8 (bitWindow (8 * gIn v) 8 j (symbolsValue v s c))) := by
  simp [decodeGroup, hj]

theorem unpack_zero (v : Variant) (p : Nat) (c : Nat → Byte) : unpack v 0 p c = [] := by simp [unpack]

/-- The length of the unpacked bytes (R150): full groups, then the last. -/
theorem unpack_length (v : Variant) (l p : Nat) (c : Nat → Byte) (h : 0 < l / gOut v) :
    (unpack v l p c).length = (l / gOut v - 1) * gIn v + groupBytes v (gOut v - p) := by
  obtain ⟨n, hn⟩ : ∃ n, l / gOut v = n + 1 := ⟨l / gOut v - 1, by omega⟩
  unfold unpack
  rw [hn, List.range_succ, List.flatMap_append, List.length_append, List.flatMap_singleton,
    length_flatMap_range _ (gIn v) n fun g hg => by
      rw [decodeGroup_length, if_neg (by omega), groupBytes_full]]
  simp

/-- Byte j of the unpacked bytes is byte j mod G_in of group j div G_in. -/
theorem unpack_getElem? (v : Variant) (l p : Nat) (c : Nat → Byte) (j : Nat) (hj : j / gIn v < l / gOut v) :
    (unpack v l p c)[j]? = (decodeGroup v (if j / gIn v = l / gOut v - 1 then gOut v - p else gOut v)
      fun t => c (j / gIn v * gOut v + t))[j % gIn v]? := by
  unfold unpack
  refine getElem?_flatMap_range _ (gIn v) (gIn_pos v) _ (fun g hg => ?_) j hj
  rw [decodeGroup_length, if_neg (by omega), groupBytes_full]

/-! ### What the codec reads (20_memory.md R64) -/

theorem groupValue_congr (v : Variant) (k : Nat) (b b' : Nat → Byte) (h : ∀ j < k, b j = b' j) :
    groupValue v k b = groupValue v k b' := by
  unfold groupValue
  congr 1
  refine List.map_congr_left fun j _ => ?_
  split_ifs with hj
  · rw [h j hj]
  · rfl

/-- EncodeCore reads the first n input bytes and no other (20_memory.md R64). -/
theorem encodeCore_congr (v : Variant) (n : Nat) (b b' : Nat → Byte) (h : ∀ i < n, b i = b' i) :
    encodeCore v n b = encodeCore v n b' := by
  unfold encodeCore encodeGroup
  rw [List.flatMap_def, List.flatMap_def]
  congr 1
  refine List.map_congr_left fun g _ => ?_
  rw [groupValue_congr v _ (fun j => b (g * gIn v + j)) (fun j => b' (g * gIn v + j)) fun j hj => h _ (by omega)]

theorem padRun_congr (c d : Nat → Byte) (l : Nat) (h : ∀ i < l, c i = d i) : padRun c l = padRun d l := by
  induction l with
  | zero => rfl
  | succ l ih => rw [padRun, padRun, h l (by omega), ih fun i hi => h i (by omega)]

theorem firstInvalid_congr (v : Variant) (c d : Nat → Byte) (m : Nat)
    (h : ∀ i < m, (valueOf v (c i)).isNone = (valueOf v (d i)).isNone) : firstInvalid v c m = firstInvalid v d m := by
  unfold firstInvalid
  exact List.find?_congr fun i hi => h i (List.mem_range.mp hi)

/-- The unpacker looks at the values of the l − p significant characters alone. -/
theorem unpack_congr (v : Variant) (l p : Nat) (c d : Nat → Byte) (hl : l % gOut v = 0) (hp : p < gOut v)
    (h : ∀ i < l - p, (valueOf v (c i)).getD 0 = (valueOf v (d i)).getD 0) : unpack v l p c = unpack v l p d := by
  unfold unpack decodeGroup symbolsValue
  rw [List.flatMap_def, List.flatMap_def]
  congr 1
  refine List.map_congr_left fun g hg => ?_
  have hg := List.mem_range.mp hg
  refine List.map_congr_left fun j _ => ?_
  congr 3
  refine List.map_congr_left fun t ht => ?_
  have ht := List.mem_range.mp ht
  split_ifs with h1 <;> try rfl
  all_goals
    refine h _ ?_
    have hd := Nat.div_add_mod l (gOut v)
    have hm : (g + 1) * gOut v ≤ l / gOut v * gOut v := Nat.mul_le_mul_right _ hg
    have hc := Nat.mul_comm (gOut v) (l / gOut v)
    rw [Nat.succ_mul] at hm
  · omega
  · have hm : (g + 2) * gOut v ≤ l / gOut v * gOut v := Nat.mul_le_mul_right _ (by omega)
    rw [Nat.add_mul] at hm
    omega

/-- DecodeCore reads the first l characters and no other (R64). -/
theorem decodeCore_congr (v : Variant) (l : Nat) (c d : Nat → Byte) (h : ∀ i < l, c i = d i) :
    decodeCore v l c = decodeCore v l d := by
  unfold decodeCore
  rw [padRun_congr c d l h, firstInvalid_congr v c d _ fun i hi => by rw [h i (by omega)]]
  split_ifs with h0 h1 h2 h3 <;> try rfl
  have := padMax_lt_gOut v
  rw [unpack_congr v l _ c d (by omega) (by omega) fun i hi => by rw [h i (by omega)]]

end Sys2Proof.Machine
end

