-- ==== Sys2Proof/Laws/State.lean ====
section
/-! SUPPORT. One lemma for each field of State under each of the machine's updates, so that no later proof unfolds a
record update, and the same for STATUS. -/

namespace Sys2Proof.Machine

@[simp] theorem State.advance_params (s : State) : s.advance.params = s.params := rfl
@[simp] theorem State.advance_inLen (s : State) : s.advance.inLen = s.inLen := rfl
@[simp] theorem State.advance_outLen (s : State) : s.advance.outLen = s.outLen := rfl
@[simp] theorem State.advance_status (s : State) : s.advance.status = s.status := rfl
@[simp] theorem State.advance_doneIe (s : State) : s.advance.doneIe = s.doneIe := rfl
@[simp] theorem State.advance_errPos (s : State) : s.advance.errPos = s.errPos := rfl
@[simp] theorem State.advance_lc (s : State) : s.advance.lc = s.lc := rfl
@[simp] theorem State.advance_ibuf (s : State) : s.advance.ibuf = s.ibuf := rfl
@[simp] theorem State.advance_obuf (s : State) : s.advance.obuf = s.obuf := rfl
@[simp] theorem State.advance_agenda (s : State) : s.advance.agenda = s.agenda.tail := rfl
@[simp] theorem State.advance_replies (s : State) : s.advance.replies = s.replies := rfl
@[simp] theorem State.advance_tick (s : State) : s.advance.tick = s.tick + 1 := rfl
@[simp] theorem State.advance_resets (s : State) : s.advance.resets = s.resets := rfl

@[simp] theorem State.accept_params (i : Instr) (s : State) : (s.accept i).params = s.params := rfl
@[simp] theorem State.accept_inLen (i : Instr) (s : State) : (s.accept i).inLen = s.inLen := rfl
@[simp] theorem State.accept_outLen (i : Instr) (s : State) : (s.accept i).outLen = 0 := rfl
@[simp] theorem State.accept_status (i : Instr) (s : State) : (s.accept i).status = s.status.accepted := rfl
@[simp] theorem State.accept_doneIe (i : Instr) (s : State) : (s.accept i).doneIe = s.doneIe := rfl
@[simp] theorem State.accept_errPos (i : Instr) (s : State) : (s.accept i).errPos = noErrPos := rfl
@[simp] theorem State.accept_lc (i : Instr) (s : State) : (s.accept i).lc = ⟨i.op, i.variant, s.inLen⟩ := rfl
@[simp] theorem State.accept_ibuf (i : Instr) (s : State) : (s.accept i).ibuf = s.ibuf := rfl
@[simp] theorem State.accept_obuf (i : Instr) (s : State) : (s.accept i).obuf = s.obuf := rfl
@[simp] theorem State.accept_agenda (i : Instr) (s : State) : (s.accept i).agenda = s.agenda := rfl
@[simp] theorem State.accept_replies (i : Instr) (s : State) : (s.accept i).replies = s.replies := rfl
@[simp] theorem State.accept_tick (i : Instr) (s : State) : (s.accept i).tick = s.tick := rfl
@[simp] theorem State.accept_resets (i : Instr) (s : State) : (s.accept i).resets = s.resets := rfl

@[simp] theorem State.badCmd_params (s : State) : s.badCmd.params = s.params := rfl
@[simp] theorem State.badCmd_inLen (s : State) : s.badCmd.inLen = s.inLen := rfl
@[simp] theorem State.badCmd_outLen (s : State) : s.badCmd.outLen = 0 := rfl
@[simp] theorem State.badCmd_status (s : State) : s.badCmd.status = s.status.badCommand := rfl
@[simp] theorem State.badCmd_doneIe (s : State) : s.badCmd.doneIe = s.doneIe := rfl
@[simp] theorem State.badCmd_errPos (s : State) : s.badCmd.errPos = noErrPos := rfl
@[simp] theorem State.badCmd_lc (s : State) : s.badCmd.lc = s.lc := rfl
@[simp] theorem State.badCmd_ibuf (s : State) : s.badCmd.ibuf = s.ibuf := rfl
@[simp] theorem State.badCmd_obuf (s : State) : s.badCmd.obuf = s.obuf := rfl
@[simp] theorem State.badCmd_agenda (s : State) : s.badCmd.agenda = s.agenda := rfl
@[simp] theorem State.badCmd_replies (s : State) : s.badCmd.replies = s.replies := rfl
@[simp] theorem State.badCmd_tick (s : State) : s.badCmd.tick = s.tick := rfl
@[simp] theorem State.badCmd_resets (s : State) : s.badCmd.resets = s.resets := rfl

@[simp] theorem State.dropCmd_params (s : State) : s.dropCmd.params = s.params := rfl
@[simp] theorem State.dropCmd_inLen (s : State) : s.dropCmd.inLen = s.inLen := rfl
@[simp] theorem State.dropCmd_outLen (s : State) : s.dropCmd.outLen = s.outLen := rfl
@[simp] theorem State.dropCmd_status (s : State) : s.dropCmd.status = s.status.overrun := rfl
@[simp] theorem State.dropCmd_doneIe (s : State) : s.dropCmd.doneIe = s.doneIe := rfl
@[simp] theorem State.dropCmd_errPos (s : State) : s.dropCmd.errPos = s.errPos := rfl
@[simp] theorem State.dropCmd_lc (s : State) : s.dropCmd.lc = s.lc := rfl
@[simp] theorem State.dropCmd_ibuf (s : State) : s.dropCmd.ibuf = s.ibuf := rfl
@[simp] theorem State.dropCmd_obuf (s : State) : s.dropCmd.obuf = s.obuf := rfl
@[simp] theorem State.dropCmd_agenda (s : State) : s.dropCmd.agenda = s.agenda := rfl
@[simp] theorem State.dropCmd_replies (s : State) : s.dropCmd.replies = s.replies := rfl
@[simp] theorem State.dropCmd_tick (s : State) : s.dropCmd.tick = s.tick := rfl
@[simp] theorem State.dropCmd_resets (s : State) : s.dropCmd.resets = s.resets := rfl

@[simp] theorem State.acknowledge_params (v : Word) (s : State) : (s.acknowledge v).params = s.params := rfl
@[simp] theorem State.acknowledge_inLen (v : Word) (s : State) : (s.acknowledge v).inLen = s.inLen := rfl
@[simp] theorem State.acknowledge_outLen (v : Word) (s : State) : (s.acknowledge v).outLen = s.outLen := rfl
@[simp] theorem State.acknowledge_status (v : Word) (s : State) : (s.acknowledge v).status = s.status.writeOneToClear v := rfl
@[simp] theorem State.acknowledge_doneIe (v : Word) (s : State) : (s.acknowledge v).doneIe = s.doneIe := rfl
@[simp] theorem State.acknowledge_errPos (v : Word) (s : State) : (s.acknowledge v).errPos = s.errPos := rfl
@[simp] theorem State.acknowledge_lc (v : Word) (s : State) : (s.acknowledge v).lc = s.lc := rfl
@[simp] theorem State.acknowledge_ibuf (v : Word) (s : State) : (s.acknowledge v).ibuf = s.ibuf := rfl
@[simp] theorem State.acknowledge_obuf (v : Word) (s : State) : (s.acknowledge v).obuf = s.obuf := rfl
@[simp] theorem State.acknowledge_agenda (v : Word) (s : State) : (s.acknowledge v).agenda = s.agenda := rfl
@[simp] theorem State.acknowledge_replies (v : Word) (s : State) : (s.acknowledge v).replies = s.replies := rfl
@[simp] theorem State.acknowledge_tick (v : Word) (s : State) : (s.acknowledge v).tick = s.tick := rfl
@[simp] theorem State.acknowledge_resets (v : Word) (s : State) : (s.acknowledge v).resets = s.resets := rfl

@[simp] theorem State.complete_params (out : List Byte) (s : State) : (s.complete out).params = s.params := rfl
@[simp] theorem State.complete_inLen (out : List Byte) (s : State) : (s.complete out).inLen = s.inLen := rfl
@[simp] theorem State.complete_outLen (out : List Byte) (s : State) : (s.complete out).outLen = BitVec.ofNat 32 out.length := rfl
@[simp] theorem State.complete_status (out : List Byte) (s : State) : (s.complete out).status = s.status.completed codeOk := rfl
@[simp] theorem State.complete_doneIe (out : List Byte) (s : State) : (s.complete out).doneIe = s.doneIe := rfl
@[simp] theorem State.complete_errPos (out : List Byte) (s : State) : (s.complete out).errPos = noErrPos := rfl
@[simp] theorem State.complete_lc (out : List Byte) (s : State) : (s.complete out).lc = s.lc := rfl
@[simp] theorem State.complete_ibuf (out : List Byte) (s : State) : (s.complete out).ibuf = s.ibuf := rfl
@[simp] theorem State.complete_obuf (out : List Byte) (s : State) : (s.complete out).obuf = s.obuf.setBytes 0 out := rfl
@[simp] theorem State.complete_agenda (out : List Byte) (s : State) : (s.complete out).agenda = s.agenda := rfl
@[simp] theorem State.complete_replies (out : List Byte) (s : State) : (s.complete out).replies = s.replies := rfl
@[simp] theorem State.complete_tick (out : List Byte) (s : State) : (s.complete out).tick = s.tick := rfl
@[simp] theorem State.complete_resets (out : List Byte) (s : State) : (s.complete out).resets = s.resets := rfl

@[simp] theorem State.raiseErr_params (v : Variant) (e : CodecError) (s : State) : (s.raiseErr v e).params = s.params := rfl
@[simp] theorem State.raiseErr_inLen (v : Variant) (e : CodecError) (s : State) : (s.raiseErr v e).inLen = s.inLen := rfl
@[simp] theorem State.raiseErr_outLen (v : Variant) (e : CodecError) (s : State) : (s.raiseErr v e).outLen = 0 := rfl
@[simp] theorem State.raiseErr_status (v : Variant) (e : CodecError) (s : State) : (s.raiseErr v e).status = s.status.completed e.code := rfl
@[simp] theorem State.raiseErr_doneIe (v : Variant) (e : CodecError) (s : State) : (s.raiseErr v e).doneIe = s.doneIe := rfl
@[simp] theorem State.raiseErr_errPos (v : Variant) (e : CodecError) (s : State) : (s.raiseErr v e).errPos = e.position := rfl
@[simp] theorem State.raiseErr_lc (v : Variant) (e : CodecError) (s : State) : (s.raiseErr v e).lc = s.lc := rfl
@[simp] theorem State.raiseErr_ibuf (v : Variant) (e : CodecError) (s : State) : (s.raiseErr v e).ibuf = s.ibuf := rfl
@[simp] theorem State.raiseErr_obuf (v : Variant) (e : CodecError) (s : State) : (s.raiseErr v e).obuf = s.obufAfterError v e := rfl
@[simp] theorem State.raiseErr_agenda (v : Variant) (e : CodecError) (s : State) : (s.raiseErr v e).agenda = s.agenda := rfl
@[simp] theorem State.raiseErr_replies (v : Variant) (e : CodecError) (s : State) : (s.raiseErr v e).replies = s.replies := rfl
@[simp] theorem State.raiseErr_tick (v : Variant) (e : CodecError) (s : State) : (s.raiseErr v e).tick = s.tick := rfl
@[simp] theorem State.raiseErr_resets (v : Variant) (e : CodecError) (s : State) : (s.raiseErr v e).resets = s.resets := rfl

@[simp] theorem State.reply_params (r : Reply) (s : State) : (s.reply r).params = s.params := rfl
@[simp] theorem State.reply_inLen (r : Reply) (s : State) : (s.reply r).inLen = s.inLen := rfl
@[simp] theorem State.reply_outLen (r : Reply) (s : State) : (s.reply r).outLen = s.outLen := rfl
@[simp] theorem State.reply_status (r : Reply) (s : State) : (s.reply r).status = s.status := rfl
@[simp] theorem State.reply_doneIe (r : Reply) (s : State) : (s.reply r).doneIe = s.doneIe := rfl
@[simp] theorem State.reply_errPos (r : Reply) (s : State) : (s.reply r).errPos = s.errPos := rfl
@[simp] theorem State.reply_lc (r : Reply) (s : State) : (s.reply r).lc = s.lc := rfl
@[simp] theorem State.reply_ibuf (r : Reply) (s : State) : (s.reply r).ibuf = s.ibuf := rfl
@[simp] theorem State.reply_obuf (r : Reply) (s : State) : (s.reply r).obuf = s.obuf := rfl
@[simp] theorem State.reply_agenda (r : Reply) (s : State) : (s.reply r).agenda = s.agenda := rfl
@[simp] theorem State.reply_replies (r : Reply) (s : State) : (s.reply r).replies = r :: s.replies := rfl
@[simp] theorem State.reply_tick (r : Reply) (s : State) : (s.reply r).tick = s.tick := rfl
@[simp] theorem State.reply_resets (r : Reply) (s : State) : (s.reply r).resets = s.resets := rfl

@[simp] theorem State.resetBlock_params (s : State) : s.resetBlock.params = s.params := rfl
@[simp] theorem State.resetBlock_inLen (s : State) : s.resetBlock.inLen = 0 := rfl
@[simp] theorem State.resetBlock_outLen (s : State) : s.resetBlock.outLen = 0 := rfl
@[simp] theorem State.resetBlock_status (s : State) : s.resetBlock.status = Status.reset := rfl
@[simp] theorem State.resetBlock_doneIe (s : State) : s.resetBlock.doneIe = false := rfl
@[simp] theorem State.resetBlock_errPos (s : State) : s.resetBlock.errPos = noErrPos := rfl
@[simp] theorem State.resetBlock_lc (s : State) : s.resetBlock.lc = ⟨Config.resetOp s.tick, Config.resetVariant s.tick, Config.resetLen s.tick⟩ := rfl
@[simp] theorem State.resetBlock_ibuf (s : State) : s.resetBlock.ibuf = [] := rfl
@[simp] theorem State.resetBlock_obuf (s : State) : s.resetBlock.obuf = [] := rfl
@[simp] theorem State.resetBlock_agenda (s : State) : s.resetBlock.agenda = s.agenda := rfl
@[simp] theorem State.resetBlock_replies (s : State) : s.resetBlock.replies = s.replies := rfl
@[simp] theorem State.resetBlock_tick (s : State) : s.resetBlock.tick = s.tick := rfl
@[simp] theorem State.resetBlock_resets (s : State) : s.resetBlock.resets = s.resets + 1 := rfl

@[simp] theorem State.resetInFlight_params (t : Transaction) (s : State) : (s.resetInFlight t).params = s.params := rfl
@[simp] theorem State.resetInFlight_inLen (t : Transaction) (s : State) : (s.resetInFlight t).inLen = 0 := rfl
@[simp] theorem State.resetInFlight_outLen (t : Transaction) (s : State) : (s.resetInFlight t).outLen = 0 := rfl
@[simp] theorem State.resetInFlight_status (t : Transaction) (s : State) : (s.resetInFlight t).status = Status.reset := rfl
@[simp] theorem State.resetInFlight_doneIe (t : Transaction) (s : State) : (s.resetInFlight t).doneIe = false := rfl
@[simp] theorem State.resetInFlight_errPos (t : Transaction) (s : State) : (s.resetInFlight t).errPos = noErrPos := rfl
@[simp] theorem State.resetInFlight_lc (t : Transaction) (s : State) : (s.resetInFlight t).lc = ⟨Config.resetOp s.tick, Config.resetVariant s.tick, Config.resetLen s.tick⟩ := rfl
@[simp] theorem State.resetInFlight_ibuf (t : Transaction) (s : State) : (s.resetInFlight t).ibuf = [] := rfl
@[simp] theorem State.resetInFlight_obuf (t : Transaction) (s : State) : (s.resetInFlight t).obuf = [] := rfl
@[simp] theorem State.resetInFlight_agenda (t : Transaction) (s : State) : (s.resetInFlight t).agenda = s.agenda := rfl
@[simp] theorem State.resetInFlight_replies (t : Transaction) (s : State) : (s.resetInFlight t).replies = tornReplies s.tick t ++ s.replies := rfl
@[simp] theorem State.resetInFlight_tick (t : Transaction) (s : State) : (s.resetInFlight t).tick = s.tick := rfl
@[simp] theorem State.resetInFlight_resets (t : Transaction) (s : State) : (s.resetInFlight t).resets = s.resets + 1 := rfl

@[simp] theorem Status.accepted_busy (st : Status) : st.accepted.busy = true := rfl
@[simp] theorem Status.accepted_done (st : Status) : st.accepted.done = false := rfl
@[simp] theorem Status.accepted_ovr (st : Status) : st.accepted.ovr = st.ovr := rfl
@[simp] theorem Status.accepted_errCode (st : Status) : st.accepted.errCode = 0 := rfl

@[simp] theorem Status.completed_busy (st : Status) (c : BitVec 4) : (st.completed c).busy = false := rfl
@[simp] theorem Status.completed_done (st : Status) (c : BitVec 4) : (st.completed c).done = true := rfl
@[simp] theorem Status.completed_ovr (st : Status) (c : BitVec 4) : (st.completed c).ovr = st.ovr := rfl
@[simp] theorem Status.completed_errCode (st : Status) (c : BitVec 4) : (st.completed c).errCode = c := rfl

@[simp] theorem Status.badCommand_busy (st : Status) : st.badCommand.busy = st.busy := rfl
@[simp] theorem Status.badCommand_done (st : Status) : st.badCommand.done = true := rfl
@[simp] theorem Status.badCommand_ovr (st : Status) : st.badCommand.ovr = st.ovr := rfl
@[simp] theorem Status.badCommand_errCode (st : Status) : st.badCommand.errCode = 4 := rfl

@[simp] theorem Status.overrun_busy (st : Status) : st.overrun.busy = st.busy := rfl
@[simp] theorem Status.overrun_done (st : Status) : st.overrun.done = st.done := rfl
@[simp] theorem Status.overrun_ovr (st : Status) : st.overrun.ovr = true := rfl
@[simp] theorem Status.overrun_errCode (st : Status) : st.overrun.errCode = st.errCode := rfl

@[simp] theorem Status.writeOneToClear_busy (st : Status) (v : Word) : (st.writeOneToClear v).busy = st.busy := rfl
@[simp] theorem Status.writeOneToClear_done (st : Status) (v : Word) : (st.writeOneToClear v).done = (if v.getLsbD 1 then false else st.done) := rfl
@[simp] theorem Status.writeOneToClear_ovr (st : Status) (v : Word) : (st.writeOneToClear v).ovr = (if v.getLsbD 2 then false else st.ovr) := rfl
@[simp] theorem Status.writeOneToClear_errCode (st : Status) (v : Word) : (st.writeOneToClear v).errCode = st.errCode := rfl

@[simp] theorem Status.reset_busy : Status.reset.busy = false := rfl
@[simp] theorem Status.reset_done : Status.reset.done = false := rfl
@[simp] theorem Status.reset_ovr : Status.reset.ovr = false := rfl
@[simp] theorem Status.reset_errCode : Status.reset.errCode = 0 := rfl

/-- A read of an IBUF byte depends on what was written there and on the last reset alone. -/
theorem State.ibufByte_congr_at (s t : State) (i : Nat) (hb : t.ibuf.get? i = s.ibuf.get? i) (hr : t.resets = s.resets) :
    t.ibufByte i = s.ibufByte i := by
  simp [State.ibufByte, hb, hr]

theorem State.ibufByte_congr (s t : State) (hb : t.ibuf = s.ibuf) (hr : t.resets = s.resets) :
    t.ibufByte = s.ibufByte :=
  funext fun i => s.ibufByte_congr_at t i (by rw [hb]) hr

theorem State.obufByte_of_get? (s : State) (j : Nat) (x : Byte) (h : s.obuf.get? j = some x) : s.obufByte j = x := by
  simp [State.obufByte, h]

theorem State.ibufByte_of_get? (s : State) (i : Nat) (x : Byte) (h : s.ibuf.get? i = some x) : s.ibufByte i = x := by
  simp [State.ibufByte, h]

/-- A read of an OBUF byte depends on what was written there and on the last reset alone. -/
theorem State.obufByte_congr (s t : State) (j : Nat) (hb : t.obuf.get? j = s.obuf.get? j) (hr : t.resets = s.resets) :
    t.obufByte j = s.obufByte j := by
  simp [State.obufByte, hb, hr]

end Sys2Proof.Machine
end

