-- ==== Sys2Proof/Laws/Memory.lean ====
section
/-! SUPPORT. The laws of a buffer: a read after a write, what a write leaves alone, and that every write keeps the
one form (indices strictly rising) and the bound; equal reads mean equal buffers. -/

namespace Sys2Proof.Machine

@[simp] theorem Memory.get?_nil (i : Nat) : Memory.get? [] i = none := rfl

theorem Memory.get?_cons (a : Nat) (b : Byte) (m : Memory) (i : Nat) :
    Memory.get? ((a, b) :: m) i = if a = i then some b else Memory.get? m i := rfl

theorem Memory.get?_eq_none_of_lt (m : Memory) (i : Nat) (h : ∀ x ∈ m, i < x.1) : m.get? i = none := by
  induction m with
  | nil => rfl
  | cons x m ih =>
    obtain ⟨a, b⟩ := x
    rw [Memory.get?_cons, if_neg, ih fun y hy => h y (List.mem_cons_of_mem _ hy)]
    have := h (a, b) (List.mem_cons_self ..)
    simp only at this
    omega

/-- A read after a write of one byte. -/
theorem Memory.get?_set (m : Memory) (i : Nat) (x : Byte) (k : Nat) :
    (m.set i x).get? k = if k = i then some x else m.get? k := by
  induction m with
  | nil => simp only [Memory.set, Memory.get?_cons, Memory.get?_nil, eq_comm]
  | cons y m ih =>
    obtain ⟨a, b⟩ := y
    by_cases h1 : i < a
    · rw [Memory.set, if_pos h1, Memory.get?_cons]
      simp only [eq_comm]
    · by_cases h2 : i = a
      · subst h2
        rw [Memory.set, if_neg h1, if_pos rfl, Memory.get?_cons, Memory.get?_cons]
        by_cases hk : k = i
        · simp [hk]
        · simp [hk, Ne.symm hk]
      · rw [Memory.set, if_neg h1, if_neg h2, Memory.get?_cons, ih, Memory.get?_cons]
        by_cases hk : k = i
        · subst hk; simp [Ne.symm h2]
        · simp [hk]

theorem Memory.get?_set_self (m : Memory) (i : Nat) (x : Byte) : (m.set i x).get? i = some x := by
  simp [Memory.get?_set]

theorem Memory.get?_set_of_ne (m : Memory) (i : Nat) (x : Byte) (k : Nat) (h : k ≠ i) :
    (m.set i x).get? k = m.get? k := by
  simp [Memory.get?_set, h]

theorem Memory.mem_set (m : Memory) (i : Nat) (x : Byte) (y : Host.Cell) (h : y ∈ m.set i x) : y = (i, x) ∨ y ∈ m := by
  induction m with
  | nil => simpa [Memory.set] using h
  | cons z m ih =>
    obtain ⟨a, b⟩ := z
    unfold Memory.set at h
    split_ifs at h with h1 h2
    · simpa using h
    · rcases List.mem_cons.mp h with h | h
      · exact .inl h
      · exact .inr (List.mem_cons_of_mem _ h)
    · rcases List.mem_cons.mp h with h | h
      · exact .inr (h ▸ List.mem_cons_self ..)
      · exact (ih h).imp_right (List.mem_cons_of_mem _)

theorem Memory.set_wf (m : Memory) (hm : m.wf) (i : Nat) (x : Byte) : (m.set i x).wf := by
  induction m with
  | nil => simp [Memory.set, Memory.wf]
  | cons y m ih =>
    obtain ⟨a, b⟩ := y
    obtain ⟨ha, hm'⟩ := List.pairwise_cons.mp hm
    unfold Memory.set
    split_ifs with h1 h2
    · refine List.pairwise_cons.mpr ⟨fun z hz => ?_, hm⟩
      rcases List.mem_cons.mp hz with rfl | hz
      · exact h1
      · exact h1.trans (ha z hz)
    · subst h2
      exact List.pairwise_cons.mpr ⟨ha, hm'⟩
    · refine List.pairwise_cons.mpr ⟨fun z hz => ?_, ih hm'⟩
      rcases Memory.mem_set m i x z hz with rfl | hz
      · simp only; omega
      · exact ha z hz

theorem Memory.set_below (m : Memory) (size i : Nat) (x : Byte) (hm : m.below size) (hi : i < size) :
    (m.set i x).below size := by
  intro y hy
  rcases Memory.mem_set m i x y hy with rfl | hy
  · exact hi
  · exact hm y hy

@[simp] theorem Memory.setBytes_nil (m : Memory) (i : Nat) : m.setBytes i [] = m := rfl

theorem Memory.setBytes_cons (m : Memory) (i : Nat) (x : Byte) (xs : List Byte) :
    m.setBytes i (x :: xs) = (m.set i x).setBytes (i + 1) xs := rfl

theorem Memory.setBytes_wf (xs : List Byte) : ∀ (m : Memory) (i : Nat), m.wf → (m.setBytes i xs).wf := by
  induction xs with
  | nil => exact fun _ _ hm => hm
  | cons x xs ih => exact fun m i hm => ih _ _ (m.set_wf hm i x)

theorem Memory.setBytes_below (size : Nat) (xs : List Byte) :
    ∀ (m : Memory) (i : Nat), m.below size → i + xs.length ≤ size → (m.setBytes i xs).below size := by
  induction xs with
  | nil => exact fun _ _ hm _ => hm
  | cons x xs ih =>
    intro m i hm hi
    rw [List.length_cons] at hi
    exact ih _ _ (m.set_below size i x hm (by omega)) (by omega)

/-- What a write of bytes at i, i+1, … does to every index. -/
theorem Memory.get?_setBytes (xs : List Byte) :
    ∀ (m : Memory) (i k : Nat),
      (m.setBytes i xs).get? k = if i ≤ k ∧ k < i + xs.length then xs[k - i]? else m.get? k := by
  induction xs with
  | nil =>
    intro m i k
    rw [Memory.setBytes_nil, if_neg (by simp)]
  | cons x xs ih =>
    intro m i k
    rw [Memory.setBytes_cons, ih, Memory.get?_set, List.length_cons]
    by_cases hk : k = i
    · subst hk
      simp
    · by_cases h : i + 1 ≤ k ∧ k < i + 1 + xs.length
      · rw [if_pos h, if_pos (by omega), show k - i = (k - (i + 1)) + 1 by omega, List.getElem?_cons_succ]
      · rw [if_neg h, if_neg hk, if_neg (by omega)]

theorem Memory.get?_setBytes_of_lt (xs : List Byte) (m : Memory) (j : Nat) (h : j < xs.length) :
    (m.setBytes 0 xs).get? j = some xs[j] := by
  rw [Memory.get?_setBytes xs m 0 j, if_pos (by omega)]
  simp [h]

theorem Memory.get?_setBytes_of_le (xs : List Byte) (m : Memory) (j : Nat) (h : xs.length ≤ j) :
    (m.setBytes 0 xs).get? j = m.get? j := by
  rw [Memory.get?_setBytes xs m 0 j, if_neg (by omega)]

/-- In the one form a buffer is held in, equal reads mean equal data. -/
theorem Memory.ext_get? : ∀ (m m' : Memory), m.wf → m'.wf → (∀ k, m.get? k = m'.get? k) → m = m' := by
  intro m
  induction m with
  | nil =>
    intro m' _ _ h
    cases m' with
    | nil => rfl
    | cons y m' =>
      obtain ⟨c, d⟩ := y
      have := h c
      simp [Memory.get?_cons] at this
  | cons x m ih =>
    intro m' hm hm' h
    obtain ⟨a, b⟩ := x
    cases m' with
    | nil => have := h a; simp [Memory.get?_cons] at this
    | cons y m' =>
      obtain ⟨c, d⟩ := y
      obtain ⟨ha, hmt⟩ := List.pairwise_cons.mp hm
      obtain ⟨hc, hmt'⟩ := List.pairwise_cons.mp hm'
      have hac : a = c := by
        rcases Nat.lt_trichotomy a c with hlt | heq | hgt
        · have h0 := h a
          rw [Memory.get?_cons, if_pos rfl, Memory.get?_cons, if_neg (by omega),
            Memory.get?_eq_none_of_lt m' a fun z hz => hlt.trans (hc z hz)] at h0
          cases h0
        · exact heq
        · have h0 := h c
          rw [Memory.get?_cons, if_neg (by omega), Memory.get?_cons, if_pos rfl,
            Memory.get?_eq_none_of_lt m c fun z hz => hgt.trans (ha z hz)] at h0
          cases h0
      subst hac
      have hbd : b = d := by have h0 := h a; simpa [Memory.get?_cons] using h0
      subst hbd
      congr 1
      refine ih m' hmt hmt' fun k => ?_
      have h0 := h k
      rw [Memory.get?_cons, Memory.get?_cons] at h0
      by_cases hk : a = k
      · subst hk
        rw [Memory.get?_eq_none_of_lt m a ha, Memory.get?_eq_none_of_lt m' a hc]
      · simpa [hk] using h0

end Sys2Proof.Machine
end

