-- ==== Sys2Proof/Laws/PerInstr.lean ====
section
/-! SUPPORT. What holds of every command as syntax, one lemma for each constructor. -/

namespace Sys2Proof.Laws.Encoding

/-- The number of a variant (30_encoding.md R82). -/
def variantNumber : Variant → Nat
  | .b64 => 0
  | .b64url => 1
  | .b32 => 2
  | .b32hex => 3
  | .b16 => 4

/-- R81 to R84: a command is the command of its OP and VARIANT, and its CMD value is 2*VARIANT + OP. -/
def Statement (i : Instr) : Prop :=
  i.wf ∧ Instr.ofFields i.op i.variant = i ∧
    (encode i).toNat = 2 * variantNumber i.variant + (if i.op = .dec then 1 else 0)

theorem encB64 : Statement .encB64 := ⟨trivial, rfl, rfl⟩
theorem decB64 : Statement .decB64 := ⟨trivial, rfl, rfl⟩
theorem encB64url : Statement .encB64url := ⟨trivial, rfl, rfl⟩
theorem decB64url : Statement .decB64url := ⟨trivial, rfl, rfl⟩
theorem encB32 : Statement .encB32 := ⟨trivial, rfl, rfl⟩
theorem decB32 : Statement .decB32 := ⟨trivial, rfl, rfl⟩
theorem encB32hex : Statement .encB32hex := ⟨trivial, rfl, rfl⟩
theorem decB32hex : Statement .decB32hex := ⟨trivial, rfl, rfl⟩
theorem encB16 : Statement .encB16 := ⟨trivial, rfl, rfl⟩
theorem decB16 : Statement .decB16 := ⟨trivial, rfl, rfl⟩

end Sys2Proof.Laws.Encoding
end

