-- ==== Sys2Proof/Laws/Window.lean ====
section
/-! SUPPORT. What the host window can do, said once: where an access goes, what a CMD write and a whole transaction
change, and what an exec-free step of the host leaves alone. -/

namespace Sys2Proof.Machine

/-! ### Where an access goes (20_memory.md R52, R53, R61, R62) -/

theorem State.target_register (s : State) (off : Nat) (h : off < 0x1000) (ha : off % 4 = 0) :
    s.target off 4 = .register off := by simp [State.target, h, ha]

theorem State.target_ibuf (s : State) (off n : Nat) (hn : n = 1 ∨ n = 2 ∨ n = 4) (ha : off % n = 0)
    (h1 : 0x1000 ≤ off) (h2 : off < 0x2000) (hr : off - 0x1000 + n ≤ s.params.ibufBytes)
    (hb : s.status.busy = false) : s.target off n = .ibuf (off - 0x1000) := by
  unfold State.target
  rw [if_neg (by simp [hn, ha]), if_neg (by omega), if_pos h2, if_neg (by simp [hb]; omega)]

theorem State.target_obuf (s : State) (off n : Nat) (hn : n = 1 ∨ n = 2 ∨ n = 4) (ha : off % n = 0)
    (h1 : 0x2000 ≤ off) (hr : off - 0x2000 + n ≤ s.params.obufBytes)
    (hb : s.status.busy = false) : s.target off n = .obuf (off - 0x2000) := by
  unfold State.target
  rw [if_neg (by simp [hn, ha]), if_neg (by omega), if_neg (by omega), if_neg (by simp [hb]; omega)]

theorem State.target_of_misaligned (s : State) (off n : Nat) (h : ¬((n = 1 ∨ n = 2 ∨ n = 4) ∧ off % n = 0)) :
    s.target off n = .busError := by
  unfold State.target
  rw [if_pos]
  by_cases hn : n = 1 ∨ n = 2 ∨ n = 4
  · exact .inr fun ha => h ⟨hn, ha⟩
  · exact .inl hn

/-- What a target that was reached says of the access. -/
theorem State.target_cases (s : State) (off n : Nat) :
    s.target off n = .busError ∨
    (s.target off n = .register off ∧ n = 4 ∧ off < 0x1000 ∧ off % 4 = 0) ∨
    (s.target off n = .ibuf (off - 0x1000) ∧ (n = 1 ∨ n = 2 ∨ n = 4) ∧ off % n = 0 ∧ 0x1000 ≤ off ∧ off < 0x2000 ∧
      off - 0x1000 + n ≤ s.params.ibufBytes ∧ s.status.busy = false) ∨
    (s.target off n = .obuf (off - 0x2000) ∧ (n = 1 ∨ n = 2 ∨ n = 4) ∧ off % n = 0 ∧ 0x2000 ≤ off ∧
      off - 0x2000 + n ≤ s.params.obufBytes ∧ s.status.busy = false) := by
  by_cases ha : (n = 1 ∨ n = 2 ∨ n = 4) ∧ off % n = 0
  · obtain ⟨hn, ha⟩ := ha
    unfold State.target
    rw [if_neg (by simp [hn, ha])]
    by_cases h1 : off < 0x1000
    · rw [if_pos h1]
      by_cases h4 : n = 4
      · subst h4; exact .inr (.inl ⟨by simp, rfl, h1, ha⟩)
      · exact .inl (by simp [h4])
    · rw [if_neg h1]
      by_cases h2 : off < 0x2000
      · rw [if_pos h2]
        by_cases hr : s.params.ibufBytes < off - 0x1000 + n ∨ s.status.busy = true
        · exact .inl (by rw [if_pos hr])
        · rw [if_neg hr]
          have hb : s.status.busy = false := by simpa using fun h => hr (.inr h)
          exact .inr (.inr (.inl ⟨rfl, hn, ha, by omega, h2, by omega, hb⟩))
      · rw [if_neg h2]
        by_cases hr : s.params.obufBytes < off - 0x2000 + n ∨ s.status.busy = true
        · exact .inl (by rw [if_pos hr])
        · rw [if_neg hr]
          have hb : s.status.busy = false := by simpa using fun h => hr (.inr h)
          exact .inr (.inr (.inr ⟨rfl, hn, ha, by omega, by omega, hb⟩))
  · exact .inl (s.target_of_misaligned off n ha)

theorem State.memRead_of_busError (s : State) (off : Offset) (n : Nat) (h : s.target off.toNat n = .busError) :
    s.memRead off n = (0, true) := by simp [State.memRead, h]

theorem State.memWrite_of_busError (s : State) (off : Offset) (n : Nat) (v : Word)
    (h : s.target off.toNat n = .busError) : s.memWrite off n v = (s, true) := by simp [State.memWrite, h]

theorem State.memRead_register (s : State) (off : Offset) (h : off.toNat < 0x1000) (ha : off.toNat % 4 = 0) :
    s.memRead off 4 = (s.regRead off.toNat, false) := by simp [State.memRead, s.target_register _ h ha]

theorem State.memWrite_register (s : State) (off : Offset) (v : Word) (h : off.toNat < 0x1000)
    (ha : off.toNat % 4 = 0) : s.memWrite off 4 v = (s.regWrite off.toNat v, false) := by
  simp [State.memWrite, s.target_register _ h ha]

/-! ### The CMD write (43_command_lifecycle.md R170) -/

theorem State.cmdWrite_busy (s : State) (w : Word) (h : s.status.busy = true) : s.cmdWrite w = s.dropCmd := by
  simp [State.cmdWrite, h]

theorem State.cmdWrite_illegal (s : State) (w : Word) (e : DecodeError) (h : s.status.busy = false)
    (hd : decode w = .error e) : s.cmdWrite w = s.badCmd := by simp [State.cmdWrite, h, hd]

theorem State.cmdWrite_oversized (s : State) (w : Word) (i : Instr) (h : s.status.busy = false)
    (hd : decode w = .ok i) (hl : s.params.ibufBytes < s.inLen.toNat) : s.cmdWrite w = s.badCmd := by
  simp [State.cmdWrite, h, hd, hl]

theorem State.cmdWrite_accepted (s : State) (w : Word) (i : Instr) (h : s.status.busy = false)
    (hd : decode w = .ok i) (hl : s.inLen.toNat ≤ s.params.ibufBytes) : s.cmdWrite w = s.accept i := by
  simp only [State.cmdWrite, h, hd, Bool.false_eq_true, if_false, if_neg (by omega : ¬s.params.ibufBytes < s.inLen.toNat)]

/-- The three things a CMD write can do. -/
theorem State.cmdWrite_cases (s : State) (w : Word) :
    (s.status.busy = true ∧ s.cmdWrite w = s.dropCmd) ∨
    (s.status.busy = false ∧ s.cmdWrite w = s.badCmd) ∨
    (s.status.busy = false ∧ ∃ i, decode w = .ok i ∧ s.inLen.toNat ≤ s.params.ibufBytes ∧ s.cmdWrite w = s.accept i) := by
  cases hb : s.status.busy with
  | true => exact .inl ⟨rfl, s.cmdWrite_busy w hb⟩
  | false =>
    cases hd : decode w with
    | error e => exact .inr (.inl ⟨rfl, s.cmdWrite_illegal w e hb hd⟩)
    | ok i =>
      by_cases hl : s.params.ibufBytes < s.inLen.toNat
      · exact .inr (.inl ⟨rfl, s.cmdWrite_oversized w i hb hd hl⟩)
      · exact .inr (.inr ⟨rfl, i, rfl, by omega, s.cmdWrite_accepted w i hb hd (by omega)⟩)

/-! ### Register offsets -/

/-- The registers a write can change stand at four offsets (20_memory.md R58). -/
theorem Reg.ofOffset_cases (off : Nat) :
    off = 0x008 ∧ Reg.ofOffset off = some .cmd ∨ off = 0x00C ∧ Reg.ofOffset off = some .inLen ∨
    off = 0x014 ∧ Reg.ofOffset off = some .status ∨ off = 0x018 ∧ Reg.ofOffset off = some .irqEn ∨
    (off ≠ 0x008 ∧ off ≠ 0x00C ∧ off ≠ 0x014 ∧ off ≠ 0x018 ∧ Reg.ofOffset off ≠ some .cmd ∧
      Reg.ofOffset off ≠ some .inLen ∧ Reg.ofOffset off ≠ some .status ∧ Reg.ofOffset off ≠ some .irqEn) := by
  by_cases h1 : off = 0x008
  · subst h1; exact .inl ⟨rfl, rfl⟩
  by_cases h2 : off = 0x00C
  · subst h2; exact .inr (.inl ⟨rfl, rfl⟩)
  by_cases h3 : off = 0x014
  · subst h3; exact .inr (.inr (.inl ⟨rfl, rfl⟩))
  by_cases h4 : off = 0x018
  · subst h4; exact .inr (.inr (.inr (.inl ⟨rfl, rfl⟩)))
  refine .inr (.inr (.inr (.inr ⟨h1, h2, h3, h4, ?_⟩)))
  unfold Reg.ofOffset
  simp only [h1, h2, h3, h4, if_false]
  split_ifs <;> simp

/-- A write to any other register offset changes nothing (R59). -/
theorem State.regWrite_ignored (s : State) (off : Nat) (v : Word) (h : off ≠ 0x008 ∧ off ≠ 0x00C ∧ off ≠ 0x014 ∧ off ≠ 0x018) :
    s.regWrite off v = s := by
  rcases Reg.ofOffset_cases off with h1 | h1 | h1 | h1 | ⟨-, -, -, -, h1, h2, h3, h4⟩
  · exact absurd h1.1 h.1
  · exact absurd h1.1 h.2.1
  · exact absurd h1.1 h.2.2.1
  · exact absurd h1.1 h.2.2.2
  · unfold State.regWrite
    split <;> first | rfl | simp_all

/-! ### A whole transaction -/

/-- Everything a host transaction can do: it replies, and it changes nothing else, or does a CMD write, or writes
IN_LEN, STATUS, IRQ_EN, or bytes of the IBUF of an idle block. -/
theorem State.transact_cases (s : State) (t : Transaction) :
    ∃ u r, s.transact t = u.reply r ∧
      (u = s ∨ (∃ w, t = .write 0x008 4 w ∧ u = s.cmdWrite w) ∨
      (∃ v, t = .write 0x00C 4 v ∧ u = { s with inLen := v }) ∨
      (∃ v, t = .write 0x014 4 v ∧ u = s.acknowledge v) ∨
      (∃ v, t = .write 0x018 4 v ∧ u = { s with doneIe := v.getLsbD 0 }) ∨
      (∃ (off : Offset) (n : Nat) (v : Word), t = .write off n v ∧ s.status.busy = false ∧ 0x1000 ≤ off.toNat ∧
        off.toNat < 0x2000 ∧ off.toNat - 0x1000 + n ≤ s.params.ibufBytes ∧
        u = { s with ibuf := s.ibuf.setBytes (off.toNat - 0x1000) (valueBytes v n) })) := by
  cases t with
  | read off n => exact ⟨s, _, rfl, .inl rfl⟩
  | write off n v =>
    refine ⟨(s.memWrite off n v).1, _, rfl, ?_⟩
    rcases s.target_cases off.toNat n with h | ⟨h, rfl, h1, h2⟩ | ⟨h, -, -, h1, h2, h3, h4⟩ | ⟨h, -⟩
    · exact .inl (by simp [State.memWrite, h])
    · rw [s.memWrite_register off v h1 h2]
      have off_eq : ∀ k : Nat, off.toNat = k → off = BitVec.ofNat 14 k := fun k hk => by
        apply BitVec.eq_of_toNat_eq
        have := off.isLt
        simp [← hk]
      rcases Reg.ofOffset_cases off.toNat with ⟨ho, hr⟩ | ⟨ho, hr⟩ | ⟨ho, hr⟩ | ⟨ho, hr⟩ | ⟨g1, g2, g3, g4, -⟩
      · exact .inr (.inl ⟨v, by rw [off_eq _ ho]; rfl, by simp [State.regWrite, hr]⟩)
      · exact .inr (.inr (.inl ⟨v, by rw [off_eq _ ho]; rfl, by simp [State.regWrite, hr]⟩))
      · exact .inr (.inr (.inr (.inl ⟨v, by rw [off_eq _ ho]; rfl, by simp [State.regWrite, hr]⟩)))
      · exact .inr (.inr (.inr (.inr (.inl ⟨v, by rw [off_eq _ ho]; rfl, by simp [State.regWrite, hr]⟩))))
      · exact .inl (s.regWrite_ignored _ v ⟨g1, g2, g3, g4⟩)
    · exact .inr (.inr (.inr (.inr (.inr ⟨off, n, v, rfl, h4, h1, h2, h3, by simp [State.memWrite, h]⟩))))
    · exact .inl (by simp [State.memWrite, h])

@[simp] theorem valueBytes_length (v : Word) (n : Nat) : (valueBytes v n).length = n := by simp [valueBytes]

theorem valueBytes_getElem? (v : Word) (n b : Nat) (h : b < n) :
    (valueBytes v n)[b]? = some (v.extractLsb' (8 * b) 8) := by simp [valueBytes, h]

/-- The value of n little-endian bytes is below 256^n. -/
theorem leValue_lt (bs : List Byte) : leValue bs < 256 ^ bs.length := by
  induction bs with
  | nil => simp [leValue]
  | cons b bs ih =>
    rw [leValue, List.length_cons, Nat.pow_succ]
    have := b.isLt
    omega

end Sys2Proof.Machine
end

