-- ==== Sys2Proof/Laws/Step.lean ====
section
/-! SUPPORT. What the Engine's completion and one step can do, said once: exec by operation and variant, the cases of a
decode completion, and the cases of a step. -/

namespace Sys2Proof.Machine

/-- The block after the completion of a command: one of the two shared operations. -/
def State.run (i : Instr) (s : State) : State :=
  match i.op with
  | .enc => s.runEncode i.variant
  | .dec => s.runDecode i.variant

/-- Every command gives a next state, that of its operation and variant (43_command_lifecycle.md R175). -/
theorem exec_eq (i : Instr) (s : State) : exec i s = .next (s.run i) := by cases i <;> rfl

@[simp] theorem Instr.op_ofFields (o : Op) (v : Variant) : (Instr.ofFields o v).op = o := by
  cases o <;> cases v <;> rfl

@[simp] theorem Instr.variant_ofFields (o : Op) (v : Variant) : (Instr.ofFields o v).variant = v := by
  cases o <;> cases v <;> rfl

@[simp] theorem Instr.ofFields_op_variant (i : Instr) : Instr.ofFields i.op i.variant = i := by cases i <;> rfl

/-- A decode completion is a success with DecodeCore's bytes, or an error with DecodeCore's error. -/
theorem State.runDecode_cases (v : Variant) (s : State) :
    (∃ out, decodeCore v s.lc.len.toNat s.ibufByte = .ok out ∧ s.runDecode v = s.complete out) ∨
    (∃ e, decodeCore v s.lc.len.toNat s.ibufByte = .err e ∧ s.runDecode v = s.raiseErr v e) := by
  cases h : decodeCore v s.lc.len.toNat s.ibufByte with
  | ok out => exact .inl ⟨out, rfl, by simp [State.runDecode, h]⟩
  | err e => exact .inr ⟨e, rfl, by simp [State.runDecode, h]⟩

/-- A completion is `complete` of some bytes or `raiseErr` of some error. -/
theorem State.run_cases (i : Instr) (s : State) :
    (∃ out, s.run i = s.complete out ∧
      (i.op = .enc ∧ out = encodeCore i.variant s.lc.len.toNat s.ibufByte ∨
        i.op = .dec ∧ decodeCore i.variant s.lc.len.toNat s.ibufByte = .ok out)) ∨
    (∃ e, i.op = .dec ∧ decodeCore i.variant s.lc.len.toNat s.ibufByte = .err e ∧ s.run i = s.raiseErr i.variant e) := by
  unfold State.run
  cases h : i.op with
  | enc => exact .inl ⟨_, rfl, .inl ⟨rfl, rfl⟩⟩
  | dec =>
    rcases s.runDecode_cases i.variant with ⟨out, h1, h2⟩ | ⟨e, h1, h2⟩
    · exact .inl ⟨out, h2, .inr ⟨rfl, h1⟩⟩
    · exact .inr ⟨e, rfl, h1, h2⟩

/-- A completion touches OBUF, OUT_LEN, ERR_POS and STATUS alone. -/
theorem State.run_sameOutside (i : Instr) (s : State) : s.SameOutside (s.run i) := by
  rcases s.run_cases i with ⟨out, h, -⟩ | ⟨e, -, -, h⟩ <;> rw [h] <;>
    exact ⟨rfl, rfl, rfl, rfl, rfl, rfl, rfl, rfl, rfl, rfl⟩

@[simp] theorem State.run_busy (i : Instr) (s : State) : (s.run i).status.busy = false := by
  rcases s.run_cases i with ⟨out, h, -⟩ | ⟨e, -, -, h⟩ <;> rw [h] <;> rfl

@[simp] theorem State.run_done (i : Instr) (s : State) : (s.run i).status.done = true := by
  rcases s.run_cases i with ⟨out, h, -⟩ | ⟨e, -, -, h⟩ <;> rw [h] <;> rfl

/-- A run whose first step gives a next state goes on from there. -/
theorem core_run_succ (s t : State) (k : Nat) (h : step s = .next t) :
    Sys2Proof.core.run (k + 1) s = Sys2Proof.core.run k t := by
  have unfold_once : ∀ (M : Host.Core) (x y : M.State), M.step x = .next y → M.run (k + 1) x = M.run k y := by
    intro M x y hxy
    rw [Host.Core.run, hxy]
  exact unfold_once Sys2Proof.core s t h

/-- Everything a step can do, with what it takes: nothing (idle, no event), an idle Engine turn, the completion of the
command in LC, a transaction, or a reset. -/
theorem step_cases (s t : State) (h : step s = .next t) :
    (s.agenda = [] ∧ s.status.busy = false ∧ t = s) ∨
    (∃ rest, s.agenda = .engine :: rest ∧ s.status.busy = false ∧ t = s.advance) ∨
    (s.status.busy = true ∧ (s.agenda = [] ∨ ∃ rest, s.agenda = .engine :: rest) ∧ t = s.advance.run s.lc.instr) ∨
    (∃ tr rest, s.agenda = .host tr :: rest ∧ t = s.advance.transact tr) ∨
    (∃ rest, s.agenda = .reset :: rest ∧ t = s.advance.resetBlock) ∨
    (∃ tr rest, s.agenda = .resetDuring tr :: rest ∧ t = s.advance.resetInFlight tr) := by
  have next_inj : ∀ u : State, (Host.Outcome.next u : Host.Outcome State Fault Refusal) = .next t → t = u :=
    fun u hu => by injection hu with hu; exact hu.symm
  cases ha : s.agenda with
  | nil =>
    cases hb : s.status.busy <;> simp only [step, engineTurn, ha, hb, exec_eq] at h <;> simp [next_inj _ h]
  | cons e rest =>
    cases e <;> cases hb : s.status.busy <;> simp only [step, engineTurn, ha, hb, exec_eq] at h <;>
      simp [next_inj _ h]

end Sys2Proof.Machine
end

