-- ==== Sys2Proof/Tests/Slice0.lean ====
section
/-! SUPPORT. The model's own tests: ill-formed terms refused, the command words of R84, one or two vectors of
95_test_vectors.md for each command, the host window, and for every statement with hypotheses a concrete input that
meets them. -/

namespace Sys2Proof.Machine

/-! ### Ill-formed terms are refused -/

theorem test_wf_default : Params.default.wf := by decide
theorem test_wf_refuses_no_ibuf : ¬Params.wf { ibufBytes := 0, obufBytes := 8192 } := by decide
theorem test_wf_refuses_big_ibuf : ¬Params.wf { ibufBytes := 4097, obufBytes := 8192 } := by decide
theorem test_wf_refuses_small_obuf : ¬Params.wf { ibufBytes := 16, obufBytes := 31 } := by decide
theorem test_wf_refuses_big_obuf : ¬Params.wf { ibufBytes := 16, obufBytes := 8193 } := by decide
theorem test_wf_refuses_size_three : Transaction.wf (.read 0x2000 3) = false := by decide
theorem test_wf_refuses_write_size_eight : Transaction.wf (.write 0x1000 8 0) = false := by decide
theorem test_wf_refuses_wide_value : Transaction.wf (.write 0x1000 1 0x100) = false := by decide
theorem test_wf_accepts_byte : Transaction.wf (.write 0x1000 1 0xFF) = true := by decide

/-! ### The words of 30_encoding.md R84, bit by bit: RES ‖ VARIANT ‖ OP -/

theorem test_decode_encB64 : decode 0b0000000000000000000000000000_000_0#32 = .ok .encB64 := by rfl
theorem test_decode_decB64 : decode 0b0000000000000000000000000000_000_1#32 = .ok .decB64 := by rfl
theorem test_decode_encB64url : decode 0b0000000000000000000000000000_001_0#32 = .ok .encB64url := by rfl
theorem test_decode_decB64url : decode 0b0000000000000000000000000000_001_1#32 = .ok .decB64url := by rfl
theorem test_decode_encB32 : decode 0b0000000000000000000000000000_010_0#32 = .ok .encB32 := by rfl
theorem test_decode_decB32 : decode 0b0000000000000000000000000000_010_1#32 = .ok .decB32 := by rfl
theorem test_decode_encB32hex : decode 0b0000000000000000000000000000_011_0#32 = .ok .encB32hex := by rfl
theorem test_decode_decB32hex : decode 0b0000000000000000000000000000_011_1#32 = .ok .decB32hex := by rfl
theorem test_decode_encB16 : decode 0b0000000000000000000000000000_100_0#32 = .ok .encB16 := by rfl
theorem test_decode_decB16 : decode 0b0000000000000000000000000000_100_1#32 = .ok .decB16 := by rfl
theorem test_decode_refuses_variant_five : decode 0x0000000A = .error .reservedVariant := by rfl
theorem test_decode_refuses_variant_seven : decode 0x0000000F = .error .reservedVariant := by rfl
theorem test_decode_refuses_bit_four : decode 0x00000010 = .error .reservedBits := by rfl
theorem test_decode_refuses_all_ones : decode 0xFFFFFFFF = .error .reservedBits := by rfl
theorem test_decode_bytes_little_endian : decodeBytes [0x09, 0x00, 0x00, 0x00, 0xAA] = .ok (.decB16, [0xAA]) := by rfl
theorem test_decode_refuses_three_bytes : decodeBytes [0x09, 0x00, 0x00] = .error .truncated := by rfl
theorem test_table_word_row : decodeTableWord 32 5 = some .decB32 := by rfl
theorem test_table_word_refuses : decodeTableWord 32 10 = none := by rfl

/-! ### Sample states -/

/-- An idle block with input bytes, the agenda given. -/
def idleWith (input : List Byte) (agenda : List Event) : State :=
  { State.reset with ibuf := Memory.setBytes [] 0 input, inLen := BitVec.ofNat 32 input.length, agenda := agenda }

/-- A block that has just accepted a command on its input. -/
def running (i : Instr) (input : List Byte) : State := (idleWith input []).accept i

/-- ASCII codes of a text. -/
def ascii (text : List Char) : List Byte := text.map fun c => BitVec.ofNat 8 c.toNat

/-- ERRCODE, OUT_LEN, ERR_POS and OBUF of the next state. -/
def outcome (o : Host.Outcome State Fault Refusal) : Option (BitVec 4 × Word × Word × List Byte) :=
  match o with
  | .next t => some (t.status.errCode, t.outLen, t.errPos, t.obuf.map (·.2))
  | .fault _ | .refused _ => none

/-- ERRCODE, OUT_LEN and ERR_POS of the next state. -/
def codes (o : Host.Outcome State Fault Refusal) : Option (BitVec 4 × Word × Word) :=
  match o with
  | .next t => some (t.status.errCode, t.outLen, t.errPos)
  | .fault _ | .refused _ => none

/-- The successful outcome with these output bytes. -/
def okOutcome (out : List Byte) : Option (BitVec 4 × Word × Word × List Byte) :=
  some (0, BitVec.ofNat 32 out.length, 0xFFFFFFFF, out)

/-! ### Vectors of 95_test_vectors.md, parts 2.2 and 2.3 -/

theorem test_encB64_two_bytes :
    outcome (exec .encB64 (running .encB64 [0x5C, 0x6E])) = okOutcome (ascii ['X', 'G', '4', '=']) := by decide
theorem test_encB64_all_ones :
    outcome (exec .encB64 (running .encB64 [0xFB, 0xFF])) = okOutcome (ascii ['+', '/', '8', '=']) := by decide
theorem test_encB64url_all_ones :
    outcome (exec .encB64url (running .encB64url [0xFB, 0xFF])) = okOutcome (ascii ['-', '_', '8', '=']) := by decide
theorem test_encB64url_full_group :
    outcome (exec .encB64url (running .encB64url [0x5C, 0x6E, 0x5C])) = okOutcome (ascii ['X', 'G', '5', 'c']) := by
  decide
theorem test_encB32_four_bytes :
    outcome (exec .encB32 (running .encB32 [0x5C, 0x6E, 0x5C, 0x6E]))
      = okOutcome (ascii ['L', 'R', 'X', 'F', 'Y', '3', 'Q', '=']) := by decide
theorem test_encB32_two_groups :
    outcome (exec .encB32 (running .encB32 [0x66, 0x6F, 0x6F, 0x62, 0x61, 0x72]))
      = okOutcome (ascii ['M', 'Z', 'X', 'W', '6', 'Y', 'T', 'B', 'O', 'I', '=', '=', '=', '=', '=', '=']) := by decide
theorem test_encB32hex_two_bytes :
    outcome (exec .encB32hex (running .encB32hex [0x5C, 0x6E]))
      = okOutcome (ascii ['B', 'H', 'N', '0', '=', '=', '=', '=']) := by decide
theorem test_encB32hex_full_group :
    outcome (exec .encB32hex (running .encB32hex [0x5C, 0x6E, 0x5C, 0x6E, 0x5C]))
      = okOutcome (ascii ['B', 'H', 'N', '5', 'O', 'R', 'I', 'S']) := by decide
theorem test_encB16_two_bytes :
    outcome (exec .encB16 (running .encB16 [0xAB, 0xCD])) = okOutcome (ascii ['A', 'B', 'C', 'D']) := by decide
theorem test_encB16_empty : outcome (exec .encB16 (running .encB16 [])) = okOutcome [] := by decide
theorem test_decB64_discarded_bits :
    outcome (exec .decB64 (running .decB64 (ascii ['X', 'B', '=', '=']))) = okOutcome [0x5C] := by decide
theorem test_decB64_padding_inside :
    codes (exec .decB64 (running .decB64 (ascii ['A', 'A', '=', '=', 'A', 'A', 'A', 'A']))) = some (3, 0, 2) := by decide
theorem test_decB64url_two_bytes :
    outcome (exec .decB64url (running .decB64url (ascii ['-', '_', '8', '=']))) = okOutcome [0xFB, 0xFF] := by decide
theorem test_decB64url_mixed_alphabets :
    codes (exec .decB64url (running .decB64url (ascii ['_', '/', '_', '/']))) = some (3, 0, 1) := by decide
theorem test_decB32_four_bytes :
    outcome (exec .decB32 (running .decB32 (ascii ['L', 'R', 'X', 'F', 'Y', '3', 'Q', '='])))
      = okOutcome [0x5C, 0x6E, 0x5C, 0x6E] := by decide
theorem test_decB32_five_padding :
    codes (exec .decB32 (running .decB32 (ascii ['L', 'R', 'X', '=', '=', '=', '=', '='])))
      = some (2, 0, 0xFFFFFFFF) := by decide
theorem test_decB32hex_two_bytes :
    outcome (exec .decB32hex (running .decB32hex (ascii ['B', 'H', 'N', '0', '=', '=', '=', '='])))
      = okOutcome [0x5C, 0x6E] := by decide
theorem test_decB32hex_beyond_v :
    codes (exec .decB32hex (running .decB32hex (ascii ['B', 'W', '=', '=', '=', '=', '=', '=']))) = some (3, 0, 1) := by
  decide
theorem test_decB16_two_bytes :
    outcome (exec .decB16 (running .decB16 (ascii ['5', 'C', '6', 'E']))) = okOutcome [0x5C, 0x6E] := by decide
theorem test_decB16_odd_length :
    codes (exec .decB16 (running .decB16 (ascii ['5', 'C', '6']))) = some (1, 0, 0xFFFFFFFF) := by decide

/-! ### Vectors of 95_test_vectors.md, parts 2.4 to 2.7 -/

theorem test_status_write_keeps_errcode :
    (Status.writeOneToClear { busy := false, done := true, ovr := true, errCode := 3 } 0xFFFFFFFF).word = 0x30 := by
  decide
theorem test_word_write_is_little_endian :
    ((idleWith [] []).memWrite 0x1000 4 0x6E5C6E5C).1.ibuf = [(0, 0x5C), (1, 0x6E), (2, 0x5C), (3, 0x6E)] := by decide
theorem test_halfword_write_misaligned : ((idleWith [] []).memWrite 0x1001 2 0).2 = true := by decide
theorem test_obuf_write_is_refused : ((idleWith [] []).memWrite 0x2000 1 0x41).2 = true := by decide
theorem test_reserved_word_is_bad_command :
    ((idleWith [] []).memWrite 0x008 4 0x0000000A).1.status.word = 0x42 := by decide
theorem test_status_while_running : ((running .encB64 [0x5C]).memRead 0x014 4) = (1, false) := by decide
theorem test_status_after_overrun :
    ((running .encB64 [0x5C]).memWrite 0x008 4 0x0000000F).1.status.word = 0x05 := by decide

/-! ### A concrete input for the hypotheses of every statement that has some -/

/-- A running block with an agenda. -/
def runningWith (i : Instr) (input : List Byte) (agenda : List Event) : State :=
  { running i input with agenda := agenda }

/-- A block whose last command has ended with DONE = 1. -/
def ended : State := { idleWith [] [] with status := { busy := false, done := true, ovr := true, errCode := 0 } }

/-- A block of other parameters: 16 input bytes. -/
def small : State := { idleWith [] [] with params := { ibufBytes := 16, obufBytes := 32 } }

/-- DecodeAcceptsExactlyTheTableWords. -/
theorem test_premises_decode_fields : decode 0x00000009 = .ok .decB16 := by rfl

/-- IllegalWordsAreRejectedByName: each clause at both ends of its range. -/
theorem test_premises_illegal_words :
    16 ≤ (0x00000010 : Word).toNat ∧ 16 ≤ (0xFFFFFFFF : Word).toNat ∧
    (10 ≤ (0x0000000A : Word).toNat ∧ (0x0000000A : Word).toNat < 16) ∧
    (10 ≤ (0x0000000F : Word).toNat ∧ (0x0000000F : Word).toNat < 16) ∧
    (0x00000000 : Word).toNat < 10 ∧ (0x00000009 : Word).toNat < 10 := by decide

/-- AlphabetsAreTotalAndInjective: the ends of a table, and two equal symbols (of one value). -/
theorem test_premises_alphabet :
    (0 < 2 ^ width .b64 ∧ 63 < 2 ^ width .b64 ∧ 31 < 2 ^ width .b32hex ∧ 15 < 2 ^ width .b16) ∧
    symbolOf .b16 15 = symbolOf .b16 15 := by decide

/-- LookupIsExactOnTheByteValue: the ends of each range. -/
theorem test_premises_lookup :
    (0x80 ≤ (0x80 : Byte).toNat ∧ 0x80 ≤ (0xFF : Byte).toNat) ∧
    ((0x00 : Byte).toNat ≤ 0x20 ∧ (0x20 : Byte).toNat ≤ 0x20 ∧ (0x7F : Byte).toNat = 0x7F) ∧
    (0x61 ≤ (0x61 : Byte).toNat ∧ (0x7A : Byte).toNat ≤ 0x7A ∧ (0x66 : Byte).toNat ≤ 0x66) := by decide

/-- EncB64, EncB32, EncB16 …Completes…, EncodersCutTheBitStreamIntoWindows: no byte, one byte, a full buffer. -/
theorem test_premises_encode :
    (running .encB64 []).LatchFits ∧ (running .encB32hex [0x5C]).LatchFits ∧
    ({ running .encB16 [] with lc := { op := .enc, variant := .b16, len := 4096 } } : State).LatchFits := by decide

/-- DecB64CompletesWithTheDecodedBytes: p = 0, 1 and 2. -/
theorem test_premises_decB64 :
    ∀ x ∈ [(ascii ['X', 'G', '5', 'c'], 0), (ascii ['X', 'G', '4', '='], 1), (ascii ['X', 'A', '=', '='], 2)],
      let s := running .decB64 x.1
      s.LatchFits ∧ s.lc.len.toNat % 4 = 0 ∧ x.2 ≤ 2 ∧ EndsInPadding s.ibufByte s.lc.len.toNat x.2 ∧
        ∀ k < s.lc.len.toNat - x.2, (valueOf .b64 (s.ibufByte k)).isSome := by
  unfold EndsInPadding; decide

/-- DecB32CompletesWithTheDecodedBytes: p = 0, 1, 3, 4 and 6. -/
theorem test_premises_decB32 :
    ∀ x ∈ [(ascii ['L', 'R', 'X', 'F', 'Y', '3', 'S', '4'], 0, 0), (ascii ['L', 'R', 'X', 'F', 'Y', '3', 'Q', '='], 1, 1),
        (ascii ['L', 'R', 'X', 'F', 'Y', '=', '=', '='], 3, 2), (ascii ['L', 'R', 'X', 'A', '=', '=', '=', '='], 4, 3),
        (ascii ['L', 'Q', '=', '=', '=', '=', '=', '='], 6, 4)],
      let s := running .decB32 x.1
      s.LatchFits ∧ s.lc.len.toNat % 8 = 0 ∧ x.2 ∈ [(0, 0), (1, 1), (3, 2), (4, 3), (6, 4)] ∧
        EndsInPadding s.ibufByte s.lc.len.toNat x.2.1 ∧
        ∀ k < s.lc.len.toNat - x.2.1, (valueOf .b32 (s.ibufByte k)).isSome := by
  unfold EndsInPadding; decide

/-- DecB16CompletesWithTheDecodedBytes. -/
theorem test_premises_decB16 :
    let s := running .decB16 (ascii ['5', 'C', '6', 'E'])
    s.LatchFits ∧ s.lc.len.toNat % 2 = 0 ∧ ∀ k < s.lc.len.toNat, (valueOf .b16 (s.ibufByte k)).isSome := by decide

/-- DecodeRejectsALengthThatIsNoMultiple: the shortest text and the longest one below a group. -/
theorem test_premises_bad_length :
    (running .decB64 (ascii ['='])).lc.len.toNat % 4 ≠ 0 ∧
    (running .decB32 (ascii ['L', 'Q', '=', '=', '=', '=', '='])).lc.len.toNat % 8 ≠ 0 ∧
    (running .decB16 (ascii ['F'])).lc.len.toNat % 2 ≠ 0 := by decide

/-- DecodeRejectsABadPaddingCount: one more than PADMAX, and the runs of 2 and 5. -/
theorem test_premises_bad_padding :
    ∀ x ∈ [(ascii ['A', '=', '=', '='], 4, 2, 3), (ascii ['A', '=', '=', '=', '=', '=', '=', '='], 8, 6, 7),
        (ascii ['L', 'R', 'X', 'F', 'Y', 'A', '=', '='], 8, 6, 2), (ascii ['L', 'R', 'X', '=', '=', '=', '=', '='], 8, 6, 5),
        (ascii ['5', '='], 2, 0, 1)],
      let s := running .decB64 x.1
      s.lc.len.toNat % x.2.1 = 0 ∧ EndsInPadding s.ibufByte s.lc.len.toNat x.2.2.2 ∧
        (x.2.2.1 < x.2.2.2 ∨ x.2.1 = 8 ∧ (x.2.2.2 = 2 ∨ x.2.2.2 = 5)) := by
  unfold EndsInPadding; decide

/-- DecodeReportsTheFirstInvalidCharacter: the first and the last character, for each group size. -/
theorem test_premises_bad_character :
    ∀ x ∈ [(Instr.decB64, ascii [' ', 'X', 'A', '='], 4, 2, 1, 0), (.decB64url, ascii ['A', 'A', 'A', '+'], 4, 2, 0, 3),
        (.decB32, ascii ['L', '1', '=', '=', '=', '=', '=', '='], 8, 6, 6, 1), (.decB16, ascii ['0', 'g'], 2, 0, 0, 1)],
      let s := running x.1 x.2.1
      s.lc.len.toNat % x.2.2.1 = 0 ∧ EndsInPadding s.ibufByte s.lc.len.toNat x.2.2.2.2.1 ∧
        x.2.2.2.2.1 ≤ x.2.2.2.1 ∧ ¬(x.2.2.1 = 8 ∧ (x.2.2.2.2.1 = 2 ∨ x.2.2.2.2.1 = 5)) ∧
        x.2.2.2.2.2 < s.lc.len.toNat - x.2.2.2.2.1 ∧ valueOf x.1.variant (s.ibufByte x.2.2.2.2.2) = none ∧
        ∀ l < x.2.2.2.2.2, (valueOf x.1.variant (s.ibufByte l)).isSome := by
  unfold EndsInPadding; decide

/-- DecodedLengthLaw: a text without padding and one with. -/
theorem test_premises_decoded_length :
    (∃ out, decodeCore .b32 8 (charAt (ascii ['L', 'R', 'X', 'F', 'Y', '3', 'S', '4'])) = .ok out) ∧
    (∃ out, decodeCore .b32 8 (charAt (ascii ['L', 'Q', '=', '=', '=', '=', '=', '='])) = .ok out) ∧
    tailBytes .b32 (gOut .b32 - 6) = some 1 :=
  ⟨⟨[0x5C, 0x6E, 0x5C, 0x6E, 0x5C], by decide⟩, ⟨[0x5C], by decide⟩, rfl⟩

/-- DiscardedBitsAreIgnored: `XA==` and `XB==` (R149). -/
theorem test_premises_discarded_bits :
    let c := charAt (ascii ['X', 'A', '=', '='])
    let d := charAt (ascii ['X', 'B', '=', '='])
    EndsInPadding c 4 2 ∧ tailBytes .b64 (gOut .b64 - 2) = some 1 ∧ 4 % gOut .b64 = 0 ∧
      (∀ i < 4, i ≠ 4 - 2 - 1 → c i = d i) ∧ valueOf .b64 (c 1) = some 0 ∧ valueOf .b64 (d 1) = some 1 ∧
      0 / 2 ^ ((gOut .b64 - 2) * width .b64 - 8 * 1) = 1 / 2 ^ ((gOut .b64 - 2) * width .b64 - 8 * 1) := by
  unfold EndsInPadding; decide

/-- CommandsEndWithTheirOwnResultCodes and CompletionsWriteOnlyTheirOwnOutput: each result code occurs, code 2 on
DEC.B16 included. -/
theorem test_premises_result_codes :
    codes (exec .decB16 (running .decB16 (ascii ['5', '=']))) = some (2, 0, 0xFFFFFFFF) ∧
    (running .decB16 (ascii ['5', '='])).LatchFits ∧ (running .decB16 (ascii ['5', 'C', '6'])).LatchFits ∧
    (running .decB16 (ascii ['G', 'G'])).LatchFits ∧ (running .decB16 (ascii ['F', 'F'])).LatchFits ∧
    codes (exec .decB16 (running .decB16 (ascii ['G', 'G']))) = some (3, 0, 0) := by decide

/-- ResultDependsOnlyOnTheOperands: two states that differ outside the operands. -/
theorem test_premises_same_operands :
    let s := running .decB16 (ascii ['F', 'F'])
    let s' := { s with ibuf := s.ibuf ++ [(9, 0x41)], doneIe := true, errPos := 7 }
    s.lc.len = s'.lc.len ∧ (∀ k < s.lc.len.toNat, s.ibufByte k = s'.ibufByte k) ∧ s ≠ s' := by decide

/-- RoundTripThroughTheBuffers: the text of one byte, copied to the input buffer. -/
theorem test_premises_round_trip_buffers :
    let s := running .encB64 [0x5C]
    let t := running .decB64 (ascii ['X', 'A', '=', '='])
    let s' := s.runEncode .b64
    s.LatchFits ∧ t.LatchFits ∧ exec .encB64 s = .next s' ∧ t.lc.len = s'.outLen ∧
      ∀ j < s'.outLen.toNat, t.ibufByte j = s'.obufByte j :=
  ⟨by decide, by decide, rfl, by decide, by decide⟩

/-- EncoderLaws: a text in the input buffer, and two equal texts. -/
theorem test_premises_encoder_laws :
    let b := charAt [0x5C]
    let t := running .decB64 (ascii ['X', 'A', '=', '='])
    t.LatchFits ∧ t.lc.len.toNat = (encodeCore .b64 1 b).length ∧
      (∀ j < t.lc.len.toNat, t.ibufByte j = charAt (encodeCore .b64 1 b) j) ∧
      encodeCore .b64 1 b = encodeCore .b64 1 (charAt [0x5C, 0xFF]) := by decide

/-- RegisterReadsFollowTheMap, RegisterRegionTakesOnlyAlignedWords, RegisterWritesFollowTheMap: the ends of the region
and of the reserved part. -/
theorem test_premises_register_region :
    ((0x028 : Offset).toNat = 0x028 ∧ (0xFFC : Offset).toNat < 0x1000 ∧ (0xFFC : Offset).toNat % 4 = 0) ∧
    ¬(4 = 4 ∧ (0xFFE : Offset).toNat % 4 = 0) ∧ (0x000 : Offset) ∉ [(0x008 : Offset), 0x00C, 0x014, 0x018] := by decide

/-- BufferAccessesAreNaturallyAligned: misaligned, and of a size that is none of 1, 2, 4. -/
theorem test_premises_buffer_alignment :
    ¬((2 = 1 ∨ 2 = 2 ∨ 2 = 4) ∧ (0x1001 : Offset).toNat % 2 = 0) ∧
    ¬((4 = 1 ∨ 4 = 2 ∨ 4 = 4) ∧ (0x3FFE : Offset).toNat % 4 = 0) ∧
    ¬((3 = 1 ∨ 3 = 2 ∨ 3 = 4) ∧ (0x2000 : Offset).toNat % 3 = 0) := by decide

/-- BuffersAreShutWhileBusy, CmdWriteWhileBusyOnlySetsOverrun, TransactionsLeaveARunningCommandAlone. -/
theorem test_premises_busy :
    (running .encB64 [0x5C]).status.busy = true ∧ (running .encB64 [0x5C]).status.done = false ∧
    (0x1000 : Offset).toNat = 0x1000 ∧ (0x3FFF : Offset).toNat = 0x3FFF ∧ (0xFFC : Offset).toNat < 0x1000 := by decide

/-- AccessesPastABufferAreBusErrors: the first byte past each buffer, and the last word of each default buffer. -/
theorem test_premises_past_the_buffers :
    (small.params.ibufBytes < (0x1010 : Offset).toNat - 0x1000 + 1) ∧
    (small.params.obufBytes < (0x2020 : Offset).toNat - 0x2000 + 1) ∧
    ((idleWith [] []).params = Params.default ∧ (idleWith [] []).status.busy = false ∧
      (0x1FFC : Offset).toNat % 4 = 0 ∧ (0x3FFC : Offset).toNat % 4 = 0) := by decide

/-- HostNeverWritesObuf: the ends of the window. -/
theorem test_premises_obuf_window : 0x2000 ≤ (0x2000 : Offset).toNat ∧ 0x2000 ≤ (0x3FFF : Offset).toNat := by decide

/-- IbufReadsBackAsWritten and ObufReadsAreLittleEndian: the first byte and the last word of each buffer. -/
theorem test_premises_buffer_access :
    small.status.busy = false ∧ (0x1000 : Offset).toNat - 0x1000 + 1 ≤ small.params.ibufBytes ∧
    (0x100C : Offset).toNat - 0x1000 + 4 ≤ small.params.ibufBytes ∧ (0x100C : Offset).toNat % 4 = 0 ∧
    (0x2000 : Offset).toNat - 0x2000 + 1 ≤ small.params.obufBytes ∧
    (0x201E : Offset).toNat - 0x2000 + 2 ≤ small.params.obufBytes ∧ (0x201E : Offset).toNat % 2 = 0 ∧
    (0x201C : Offset).toNat - 0x2000 + 4 ≤ small.params.obufBytes ∧ (0x201C : Offset).toNat % 4 = 0 := by decide

/-- BusErrorsAndReadsHaveNoEffect. -/
theorem test_premises_bus_error :
    ((idleWith [] []).memRead 0x2003 2).2 = true ∧ ((idleWith [] []).memWrite 0x2000 1 0x41).2 = true := by decide

/-- IllegalWordIsABadCommand, OversizedLengthIsABadCommand, LegalWordIsAccepted: the words and lengths where the
clauses meet. -/
theorem test_premises_cmd_write :
    (idleWith [] []).status.busy = false ∧ 10 ≤ (0x0000000A : Word).toNat ∧ 10 ≤ (0xFFFFFFFF : Word).toNat ∧
    ({ idleWith [] [] with inLen := 4097 } : State).params.ibufBytes < (4097 : Word).toNat ∧
    (4096 : Word).toNat ≤ ({ idleWith [] [] with inLen := 4096 } : State).params.ibufBytes := by decide

/-- ReadsWhileBusyShowNoResult and EveryStepKeepsTheInvariant: a running block meets the invariant. -/
theorem test_premises_invariant_busy : (running .encB64 [0x5C]).Inv ∧ (running .encB64 [0x5C]).status.busy = true :=
  ⟨{ params_wf := by decide
     busy_hides := by unfold State.BusyHidesResults; decide
     error_no_output := by decide
     errPos_code := by decide
     outLen_le := by decide
     errCode_le := by decide
     ibuf_wf := by decide
     ibuf_below := by decide
     obuf_wf := by decide
     obuf_below := by decide
     output_held := by decide }, rfl⟩

/-- EveryStepKeepsTheInvariant: that block has a next step. -/
theorem test_premises_step_of_busy :
    step (running .encB64 [0x5C]) = .next ((running .encB64 [0x5C]).advance.runEncode .b64) := rfl

/-- InterruptFollowsDoneAndItsEnable: the bit that clears DONE, an idle block whose length fits, a running block. -/
theorem test_premises_interrupt :
    (0x2 : Word).getLsbD 1 = true ∧ ended.status.busy = false ∧ ended.inLen.toNat ≤ ended.params.ibufBytes ∧
    (running .encB64 []).status.busy = true := by decide

/-- EngineTurnRunsTheLatchedCommand: with no event left, and at the Engine's turn. -/
theorem test_premises_engine_turn :
    (running .encB64 [0x5C]).status.busy = true ∧ (running .encB64 [0x5C]).agenda = [] ∧
    (runningWith .encB64 [0x5C] [.engine, .reset]).status.busy = true ∧
    (runningWith .encB64 [0x5C] [.engine, .reset]).agenda = .engine :: [.reset] := by decide

/-- WrittenWordRunsAtTheEnginesTurn. -/
theorem test_premises_written_word :
    let s := idleWith [0x5C] [.host (.write 0x008 4 0x00000008), .engine]
    s.status.busy = false ∧ s.inLen.toNat ≤ s.params.ibufBytes ∧ decode 0x00000008 = .ok .encB16 ∧
      s.agenda = .host (.write 0x008 4 0x00000008) :: .engine :: [] := ⟨rfl, by decide, rfl, rfl⟩

/-- PlacedWordRunsInTheNextStep. -/
theorem test_premises_placed_word : decodeTableWord 32 8 = some .encB16 := by rfl

/-- IdleEngineHasNoStep: with no event left, and at the Engine's turn. -/
theorem test_premises_idle_engine :
    (idleWith [] []).status.busy = false ∧ (idleWith [] []).agenda = [] ∧ (idleWith [] [.engine]).status.busy = false ∧
    (idleWith [] [.engine]).agenda = .engine :: [] := by decide

/-- AcceptedCommandIsCompleted: two polls, then the Engine. -/
theorem test_premises_accepted_command :
    (runningWith .encB64 [0x5C] [.host (.read 0x014 4), .host (.write 0x008 4 0)]).status.busy = true ∧
    (runningWith .encB64 [0x5C] [.host (.read 0x014 4), .host (.write 0x008 4 0)]).NoReset := by decide

/-- BusyChangesOnlyAtAcceptanceAndCompletion: a step that sets BUSY, and three that clear it. -/
theorem test_premises_busy_changes :
    (∃ t, step (idleWith [] [.host (.write 0x008 4 0)]) = .next t ∧ t.status.busy = true) ∧
    (∃ t, step (running .encB64 []) = .next t ∧ t.status.busy = false) ∧
    (∃ t, step (runningWith .encB64 [] [.engine]) = .next t ∧ t.status.busy = false) ∧
    (∃ t, step (runningWith .encB64 [] [.reset]) = .next t ∧ t.status.busy = false) :=
  ⟨⟨_, rfl, by decide⟩, ⟨_, rfl, by decide⟩, ⟨_, rfl, by decide⟩, ⟨_, rfl, by decide⟩⟩

/-- DoneChangesOnlyWhereItsRuleSays: three steps that clear DONE, and two that set it. -/
theorem test_premises_done_changes :
    ended.status.done = true ∧
    (∃ t, step { ended with agenda := [.host (.write 0x014 4 2)] } = .next t ∧ t.status.done = false) ∧
    (∃ t, step { ended with agenda := [.host (.write 0x008 4 0)] } = .next t ∧ t.status.done = false) ∧
    (∃ t, step { ended with agenda := [.reset] } = .next t ∧ t.status.done = false) ∧
    (running .encB64 []).status.done = false ∧ (∃ t, step (running .encB64 []) = .next t ∧ t.status.done = true) ∧
    (∃ t, step (idleWith [] [.host (.write 0x008 4 0xA)]) = .next t ∧ t.status.done = true) :=
  ⟨rfl, ⟨_, rfl, by decide⟩, ⟨_, rfl, by decide⟩, ⟨_, rfl, by decide⟩, rfl, ⟨_, rfl, by decide⟩, ⟨_, rfl, by decide⟩⟩

/-- OverrunChangesOnlyWhereItsRuleSays: two steps that clear OVR, and the one that sets it. -/
theorem test_premises_overrun_changes :
    ended.status.ovr = true ∧
    (∃ t, step { ended with agenda := [.host (.write 0x014 4 4)] } = .next t ∧ t.status.ovr = false) ∧
    (∃ t, step { ended with agenda := [.reset] } = .next t ∧ t.status.ovr = false) ∧
    (∃ t, step (runningWith .encB64 [] [.host (.write 0x008 4 0)]) = .next t ∧ t.status.ovr = true) :=
  ⟨rfl, ⟨_, rfl, by decide⟩, ⟨_, rfl, by decide⟩, ⟨_, rfl, by decide⟩⟩

/-- EachBufferHasOneWriter: the Engine changes OBUF, the host changes IBUF, and a reset changes both. -/
theorem test_premises_buffer_writers :
    (∃ t, step (running .encB64 [0x5C]) = .next t ∧ t.obuf ≠ []) ∧
    (∃ t, step (idleWith [] [.host (.write 0x1000 1 0x41)]) = .next t ∧ t.ibuf ≠ []) ∧
    (∃ t, step { idleWith [0x5C] [.reset] with obuf := [(0, 0x41)] } = .next t ∧ t.ibuf = [] ∧ t.obuf = []) :=
  ⟨⟨_, rfl, by decide⟩, ⟨_, rfl, by decide⟩, ⟨_, rfl, rfl, rfl⟩⟩

/-- ResetStepRestoresTheResetValues: both kinds of reset. -/
theorem test_premises_reset_step :
    (runningWith .encB64 [0x5C] [.reset]).agenda = .reset :: [] ∧ Event.isReset .reset = true ∧
    (runningWith .encB64 [0x5C] [.resetDuring (.read 0x014 4)]).agenda = .resetDuring (.read 0x014 4) :: [] ∧
    Event.isReset (.resetDuring (.read 0x014 4)) = true := by decide

/-- BufferBytesAreStableUntilWritten: a host write that changes a written byte, and a completion that changes one. -/
theorem test_premises_stable_bytes :
    (∃ t, step (idleWith [0x5C] [.host (.write 0x1000 1 0x41)]) = .next t ∧
      t.ibufByte 0 ≠ (idleWith [0x5C] [.host (.write 0x1000 1 0x41)]).ibufByte 0) ∧
    (∀ e rest, (idleWith [0x5C] [.host (.write 0x1000 1 0x41)]).agenda = e :: rest → e.isReset = false) ∧
    (∃ t, step { running .encB16 [0x5C] with obuf := [(0, 0x41)] } = .next t ∧
      t.obufByte 0 ≠ ({ running .encB16 [0x5C] with obuf := [(0, 0x41)] } : State).obufByte 0) :=
  ⟨⟨_, rfl, by decide⟩, fun e rest h => by cases h; rfl, ⟨_, rfl, by decide⟩⟩

/-- An unwritten byte keeps its draw over a poll of STATUS, and a reset draws it again (I1). -/
theorem test_unwritten_byte_keeps_its_draw :
    ((idleWith [] []).transact (.read 0x014 4)).ibufByte 7 = Config.unwrittenIbuf 0 7 ∧
    (idleWith [] []).resetBlock.ibufByte 7 = Config.unwrittenIbuf 1 7 := ⟨rfl, rfl⟩

end Sys2Proof.Machine
end

section
/-! PROOF. The whole-machine rules of 10_state.md: the cases of a step, flat and named, the invariant kept by each
operation, the result codes of a completion, and who may change BUSY, DONE, OVR and the buffers. -/

namespace Sys2Proof.Machine

/-! ### What one step can do -/

/-- Who moves is the Engine: its turn is next, or no event is left (43_command_lifecycle.md R180). -/
abbrev State.EngineMoves (s : State) : Prop := s.agenda = [] ∨ ∃ rest, s.agenda = .engine :: rest

/-- The next event is this transaction of the host. -/
abbrev State.HostMoves (s : State) (tr : Transaction) : Prop := ∃ rest, s.agenda = .host tr :: rest

/-- The effects a step can have, each with what it takes: `step_cases`, `State.transact_cases` and `State.cmdWrite_cases`
in one. Both kinds of reset are one case, since they differ in the replies alone. -/
inductive StepEffect (s : State) : State → Prop
  | idles (next : s.agenda = []) (idle : s.status.busy = false) : StepEffect s s
  | skips (next : ∃ rest, s.agenda = .engine :: rest) (idle : s.status.busy = false) : StepEffect s s.advance
  | completes (busy : s.status.busy = true) (next : s.EngineMoves) : StepEffect s (s.advance.run s.lc.instr)
  | replies (r : Reply) (tr : Transaction) (next : s.HostMoves tr) : StepEffect s (s.advance.reply r)
  | dropsCmd (r : Reply) (w : Word) (next : s.HostMoves (.write 0x008 4 w)) (busy : s.status.busy = true) :
      StepEffect s (s.advance.dropCmd.reply r)
  | rejectsCmd (r : Reply) (w : Word) (next : s.HostMoves (.write 0x008 4 w)) (idle : s.status.busy = false) :
      StepEffect s (s.advance.badCmd.reply r)
  | acceptsCmd (r : Reply) (w : Word) (i : Instr) (next : s.HostMoves (.write 0x008 4 w)) (idle : s.status.busy = false)
      (decodes : decode w = .ok i) (fits : s.inLen.toNat ≤ s.params.ibufBytes) :
      StepEffect s ((s.advance.accept i).reply r)
  | writesInLen (r : Reply) (v : Word) (next : s.HostMoves (.write 0x00C 4 v)) :
      StepEffect s ({ s.advance with inLen := v }.reply r)
  | writesStatus (r : Reply) (v : Word) (next : s.HostMoves (.write 0x014 4 v)) :
      StepEffect s ((s.advance.acknowledge v).reply r)
  | writesIrqEn (r : Reply) (v : Word) (next : s.HostMoves (.write 0x018 4 v)) :
      StepEffect s ({ s.advance with doneIe := v.getLsbD 0 }.reply r)
  | writesIbuf (r : Reply) (off : Offset) (n : Nat) (v : Word) (next : s.HostMoves (.write off n v))
      (idle : s.status.busy = false) (lower : 0x1000 ≤ off.toNat) (upper : off.toNat < 0x2000)
      (fits : off.toNat - 0x1000 + n ≤ s.params.ibufBytes) :
      StepEffect s
        ({ s.advance with ibuf := s.ibuf.setBytes (off.toNat - 0x1000) (valueBytes v n) }.reply r)
  | resets (rs : List Reply) (next : ∃ e rest, s.agenda = e :: rest ∧ e.isReset = true) :
      StepEffect s { s.advance.resetBlock with replies := rs }

/-- The effects of a host transaction. -/
theorem stepEffect_transact (s : State) (tr : Transaction) (next : s.HostMoves tr) :
    StepEffect s (s.advance.transact tr) := by
  obtain ⟨u, r, htr, hu⟩ := s.advance.transact_cases tr
  rw [htr]
  rcases hu with rfl | ⟨w, rfl, rfl⟩ | ⟨v, rfl, rfl⟩ | ⟨v, rfl, rfl⟩ | ⟨v, rfl, rfl⟩ |
    ⟨off, n, v, rfl, hb, h1, h2, h3, rfl⟩
  · exact .replies r tr next
  · rcases s.advance.cmdWrite_cases w with ⟨hb, hw⟩ | ⟨hb, hw⟩ | ⟨hb, i, hd, hl, hw⟩ <;> rw [hw]
    · exact .dropsCmd r w next hb
    · exact .rejectsCmd r w next hb
    · exact .acceptsCmd r w i next hb hd hl
  · exact .writesInLen r v next
  · exact .writesStatus r v next
  · exact .writesIrqEn r v next
  · exact .writesIbuf r off n v next hb h1 h2 h3

/-- Every step has one of the effects. -/
theorem step_effect {s t : State} (h : step s = .next t) : StepEffect s t := by
  rcases step_cases s t h with ⟨ha, hb, rfl⟩ | ⟨rest, ha, hb, rfl⟩ | ⟨hb, ha, rfl⟩ | ⟨tr, rest, ha, rfl⟩ | ⟨rest, ha, rfl⟩ |
    ⟨tr, rest, ha, rfl⟩
  · exact .idles ha hb
  · exact .skips ⟨rest, ha⟩ hb
  · exact .completes hb ha
  · exact stepEffect_transact s tr ⟨rest, ha⟩
  · exact .resets s.replies ⟨_, rest, ha, rfl⟩
  · exact .resets _ ⟨_, rest, ha, rfl⟩

/-! ### The codec's output and errors -/

theorem ceilDiv_mono {a b : Nat} (n : Nat) (h : a ≤ b) : ceilDiv a n ≤ ceilDiv b n :=
  Nat.div_le_div_right (by omega)

/-- The text of n bytes is at most OutMax(m) long for n ≤ m (00_scope.md R7). -/
theorem encodeCore_length_le_outMax (v : Variant) (n m : Nat) (b : Nat → Byte) (h : n ≤ m) :
    (encodeCore v n b).length ≤ outMax m := by
  have h3 := ceilDiv_mono 3 h
  have h5 := ceilDiv_mono 5 h
  have h1 : ceilDiv n 1 = n := by simp [ceilDiv]
  rw [encodeCore_length, outMax]
  cases v <;> simp only [gIn, gOut, h1] <;> omega

theorem groupBytes_le (v : Variant) (s : Nat) : groupBytes v s ≤ gIn v := by
  unfold groupBytes
  split_ifs
  · exact le_rfl
  · cases h : tailBytes v s with
    | none => simp
    | some k => exact (tailBytes_lt v s k h).2.1.le

/-- The unpacker stays below DecBound (20_memory.md R65). -/
theorem unpack_length_le (v : Variant) (l p : Nat) (c : Nat → Byte) : (unpack v l p c).length ≤ l / gOut v * gIn v := by
  rcases Nat.eq_zero_or_pos (l / gOut v) with h | h
  · simp [unpack, h]
  · obtain ⟨n, hn⟩ : ∃ n, l / gOut v = n + 1 := ⟨l / gOut v - 1, by omega⟩
    have := groupBytes_le v (gOut v - p)
    rw [unpack_length v l p c h, hn, Nat.add_sub_cancel, Nat.succ_mul]
    omega

/-- DecBound is at most the length of the text. -/
theorem div_gOut_mul_gIn_le (v : Variant) (l : Nat) : l / gOut v * gIn v ≤ l :=
  (Nat.mul_le_mul_left _ (gIn_le_gOut v)).trans (Nat.div_mul_le_self l (gOut v))

/-- A decoded text is no longer than its text (42_decode.md R150). -/
theorem length_le_of_decodeCore_ok {v : Variant} {l : Nat} {c : Nat → Byte} {out : List Byte}
    (h : decodeCore v l c = .ok out) : out.length ≤ l := by
  rcases decodeCore_cases v l c with ⟨-, he⟩ | ⟨-, p, -, ⟨-, he⟩ | ⟨-, -, ⟨i, -, he⟩ | ⟨-, he⟩⟩⟩ <;>
    rw [he] at h <;> cases h
  exact (unpack_length_le v l p c).trans (div_gOut_mul_gIn_le v l)

/-- ERR_POS is an index of the text (R147). -/
theorem lt_of_decodeCore_invalidCharacter {v : Variant} {l pos : Nat} {c : Nat → Byte}
    (h : decodeCore v l c = .err (.invalidCharacter pos)) : pos < l := by
  rcases decodeCore_cases v l c with ⟨-, he⟩ | ⟨-, p, -, ⟨-, he⟩ | ⟨-, -, ⟨i, hi, he⟩ | ⟨-, he⟩⟩⟩ <;>
    rw [he] at h <;> cases h
  have := ((firstInvalid_some v c (l - p) pos).mp hi).1
  omega

/-- A text whose padding is rejected ends in a padding character (R145, R146). -/
theorem endsInPad_of_decodeCore_invalidPaddingCount {v : Variant} {l : Nat} {c : Nat → Byte}
    (h : decodeCore v l c = .err .invalidPaddingCount) : 0 < l ∧ c (l - 1) = padChar := by
  rcases decodeCore_cases v l c with ⟨-, he⟩ | ⟨-, p, ⟨hp, hrun, -⟩, ⟨hbad, -⟩ | ⟨-, -, ⟨i, -, he⟩ | ⟨-, he⟩⟩⟩
  case inr.inl =>
    have : 0 < p := by omega
    exact ⟨by omega, hrun (l - 1) (by omega) (by omega)⟩
  all_goals (rw [he] at h; cases h)

theorem CodecError.code_toNat_le (e : CodecError) : e.code.toNat ≤ 3 := by
  cases e <;> simp [CodecError.code]

theorem CodecError.code_eq_two {e : CodecError} (h : e.code = 2) : e = .invalidPaddingCount := by
  cases e with
  | invalidPaddingCount => rfl
  | invalidLength => exact absurd h (by decide)
  | invalidCharacter pos => exact absurd h (by simp [CodecError.code])

/-- Only InvalidCharacter records a position (60_exceptions.md R203). -/
theorem CodecError.eq_invalidCharacter_of_position {e : CodecError} (h : e.position ≠ noErrPos) :
    ∃ pos, e = .invalidCharacter pos := by
  cases e with
  | invalidCharacter pos => exact ⟨pos, rfl⟩
  | invalidLength | invalidPaddingCount => exact absurd rfl h

/-! ### The result codes of a completion -/

@[simp] theorem State.run_ovr (i : Instr) (s : State) : (s.run i).status.ovr = s.status.ovr := (s.run_sameOutside i).ovr

/-- Settles O24: a completion is `complete` with code 0, or the error that DecodeCore answered. -/
theorem commandsEndWithTheirOwnResultCodes : Obligations.CommandsEndWithTheirOwnResultCodes := by
  intro i s
  refine ⟨s.run i, exec_eq i s, s.run_busy i, s.run_done i, s.run_ovr i, ?_⟩
  rcases s.run_cases i with ⟨out, h, -⟩ | ⟨e, hop, hd, h⟩ <;> rw [h]
  · exact ⟨fun _ => rfl, fun _ => by simp [codeOk], fun _ h2 => absurd h2 (by simp [codeOk])⟩
  · refine ⟨fun he => ?_, fun _ => e.code_toNat_le, fun _ h2 => ?_⟩
    · rw [hop] at he; cases he
    · rw [CodecError.code_eq_two h2] at hd
      exact endsInPad_of_decodeCore_invalidPaddingCount hd

/-! ### The invariant, operation by operation -/

/-- A block with its results cleared and nothing written meets the invariant (70_reset_and_hazards.md R231). -/
theorem State.inv_of_cleared {s : State} (hp : s.params.wf) (hst : s.status = Status.reset) (hol : s.outLen = 0)
    (hep : s.errPos = noErrPos) (hi : s.ibuf = []) (ho : s.obuf = []) : s.Inv where
  params_wf := hp
  busy_hides := by simp [State.BusyHidesResults, hst]
  error_no_output := fun _ => hol
  errPos_code := fun h => absurd hep h
  outLen_le := by simp [hol]
  errCode_le := by simp [hst]
  ibuf_wf := by simp [hi]
  ibuf_below := by simp [hi]
  obuf_wf := by simp [ho]
  obuf_below := by simp [ho]
  output_held := by simp [hol]

namespace State.Inv

variable {s : State} (h : s.Inv)
include h

theorem advance : s.advance.Inv := { h with }

theorem reply (r : Reply) : (s.reply r).Inv := { h with }

theorem dropCmd : s.dropCmd.Inv := { h with }

theorem writeInLen (v : Word) : { s with inLen := v }.Inv := { h with }

theorem writeIrqEn (b : Bool) : { s with doneIe := b }.Inv := { h with }

theorem acknowledge (v : Word) : (s.acknowledge v).Inv :=
  { h with
    busy_hides := fun hb => by
      obtain ⟨hdone, hrest⟩ := h.busy_hides hb
      exact ⟨by simp [hdone], hrest⟩ }

theorem badCmd (idle : s.status.busy = false) : s.badCmd.Inv :=
  { h with
    busy_hides := fun hb => absurd hb (by simp [idle])
    error_no_output := fun _ => rfl
    errPos_code := fun he => absurd rfl he
    outLen_le := by simp
    errCode_le := by simp
    output_held := by simp }

theorem accept (i : Instr) (fits : s.inLen.toNat ≤ s.params.ibufBytes) : (s.accept i).Inv :=
  { h with
    busy_hides := fun _ => ⟨rfl, rfl, rfl, rfl, fits⟩
    error_no_output := fun _ => rfl
    errPos_code := fun he => absurd rfl he
    outLen_le := by simp
    errCode_le := by simp
    output_held := by simp }

theorem writeIbuf (i : Nat) (bs : List Byte) (fits : i + bs.length ≤ s.params.ibufBytes) :
    { s with ibuf := s.ibuf.setBytes i bs }.Inv :=
  { h with
    ibuf_wf := Memory.setBytes_wf bs _ i h.ibuf_wf
    ibuf_below := Memory.setBytes_below _ bs _ i h.ibuf_below fits }

theorem complete (out : List Byte) (fits : out.length ≤ s.params.obufBytes) : (s.complete out).Inv := by
  obtain ⟨-, -, -, hmax⟩ := h.params_wf
  have hlen : (s.complete out).outLen.toNat = out.length := by
    rw [State.complete_outLen, BitVec.toNat_ofNat, Nat.mod_eq_of_lt (by omega)]
  exact
    { h with
      busy_hides := fun hb => absurd hb (by simp)
      error_no_output := fun he => absurd rfl he
      errPos_code := fun he => absurd rfl he
      outLen_le := hlen.trans_le fits
      errCode_le := by simp [codeOk]
      obuf_wf := Memory.setBytes_wf out _ 0 h.obuf_wf
      obuf_below := Memory.setBytes_below _ out _ 0 h.obuf_below (by simpa using fits)
      output_held := fun j hj => by
        rw [State.complete_obuf, Memory.get?_setBytes_of_lt out _ j (hlen ▸ hj)]
        rfl }

theorem raiseErr (v : Variant) (e : CodecError) (fits : s.decBound v ≤ s.params.obufBytes)
    (inText : ∀ pos, e = .invalidCharacter pos → pos < s.lc.len.toNat) : (s.raiseErr v e).Inv :=
  { h with
    busy_hides := fun hb => absurd hb (by simp)
    error_no_output := fun _ => rfl
    errPos_code := fun he => by
      obtain ⟨pos, rfl⟩ := CodecError.eq_invalidCharacter_of_position he
      exact ⟨rfl, (Nat.mod_le pos _).trans_lt (inText pos rfl)⟩
    outLen_le := by simp
    errCode_le := e.code_toNat_le.trans (by decide)
    obuf_wf := by
      cases e with
      | invalidCharacter pos => exact Memory.setBytes_wf _ _ 0 h.obuf_wf
      | invalidLength | invalidPaddingCount => exact h.obuf_wf
    obuf_below := by
      cases e with
      | invalidCharacter pos => exact Memory.setBytes_below _ _ _ 0 h.obuf_below (by simpa using fits)
      | invalidLength | invalidPaddingCount => exact h.obuf_below
    output_held := by simp }

/-- Any n up to the size of IBUF fits OBUF too (00_scope.md R7). -/
theorem le_obufBytes {n : Nat} (hn : n ≤ s.params.ibufBytes) : n ≤ s.params.obufBytes := by
  obtain ⟨-, -, hout, -⟩ := h.params_wf
  unfold outMax at hout
  omega

/-- The completion of a running command keeps the invariant: its text fits, so its output does. -/
theorem run (i : Instr) (fits : s.lc.len.toNat ≤ s.params.ibufBytes) : (s.run i).Inv := by
  rcases s.run_cases i with ⟨out, hr, ⟨-, rfl⟩ | ⟨-, hd⟩⟩ | ⟨e, -, hd, hr⟩ <;> rw [hr]
  · obtain ⟨-, -, hout, -⟩ := h.params_wf
    exact h.complete _ ((encodeCore_length_le_outMax _ _ _ _ fits).trans hout)
  · exact h.complete out (h.le_obufBytes ((length_le_of_decodeCore_ok hd).trans fits))
  · refine h.raiseErr _ e (h.le_obufBytes ((div_gOut_mul_gIn_le _ _).trans fits)) fun pos he => ?_
    exact lt_of_decodeCore_invalidCharacter (he ▸ hd)

end State.Inv

/-- Settles O52: nothing is written and no result is shown. -/
theorem invariantHoldsAtReset : Obligations.InvariantHoldsAtReset :=
  State.inv_of_cleared (by decide) rfl rfl rfl rfl rfl

/-- Settles O53: every effect of a step is an operation that keeps the invariant. -/
theorem everyStepKeepsTheInvariant : Obligations.EveryStepKeepsTheInvariant := by
  intro s t h hstep
  cases step_effect hstep with
  | idles => exact h
  | skips => exact h.advance
  | completes busy =>
    obtain ⟨-, -, -, -, fits⟩ := h.busy_hides busy
    exact h.advance.run _ fits
  | replies r => exact h.advance.reply r
  | dropsCmd r => exact h.advance.dropCmd.reply r
  | rejectsCmd r _ _ idle => exact (h.advance.badCmd idle).reply r
  | acceptsCmd r _ i _ _ _ fits => exact (h.advance.accept i fits).reply r
  | writesInLen r v => exact (h.advance.writeInLen v).reply r
  | writesStatus r v => exact (h.advance.acknowledge v).reply r
  | writesIrqEn r v => exact (h.advance.writeIrqEn _).reply r
  | writesIbuf r off n v _ _ _ _ fits =>
    exact (h.advance.writeIbuf _ (valueBytes v n) (by simpa using fits)).reply r
  | resets rs => exact State.inv_of_cleared h.params_wf rfl rfl rfl rfl rfl

/-! ### Who changes BUSY, DONE and OVR -/

/-- Settles O54: BUSY rises in the effect `acceptsCmd` alone, and falls in `completes` and `resets`. -/
theorem busyChangesOnlyAtAcceptanceAndCompletion : Obligations.BusyChangesOnlyAtAcceptanceAndCompletion := by
  intro s t hstep
  refine ⟨fun hs ht => ?_, fun hs ht => ?_⟩
  · cases step_effect hstep with
    | acceptsCmd r w i next _ decodes fits =>
      obtain ⟨rest, ha⟩ := next
      exact ⟨w, i, rest, ha, decodes, fits, rfl⟩
    | _ => simp [hs] at ht
  · cases step_effect hstep with
    | completes _ next => exact next.imp_right .inl
    | resets _ next => exact .inr (.inr next)
    | _ => simp [hs] at ht

/-- Settles O55: DONE falls in three effects, the acceptance among them, and rises in `completes` and `rejectsCmd`. -/
theorem doneChangesOnlyWhereItsRuleSays : Obligations.DoneChangesOnlyWhereItsRuleSays := by
  intro s t hstep
  refine ⟨fun hs ht => ?_, fun hs ht => ?_⟩
  · cases step_effect hstep with
    | writesStatus r v next =>
      obtain ⟨rest, ha⟩ := next
      exact .inl ⟨v, rest, ha, by simpa [hs] using ht⟩
    | acceptsCmd r w i next =>
      obtain ⟨rest, ha⟩ := next
      exact .inr (.inl ⟨w, rest, ha, rfl⟩)
    | resets _ next => exact .inr (.inr next)
    | _ => simp [hs] at ht
  · cases step_effect hstep with
    | completes busy next => exact .inl ⟨busy, next⟩
    | rejectsCmd r w next =>
      obtain ⟨rest, ha⟩ := next
      exact .inr ⟨w, rest, ha, rfl⟩
    | _ => simp [hs] at ht

/-- Settles O56: OVR rises in the effect `dropsCmd` alone, and falls at the acknowledgement and a reset. -/
theorem overrunChangesOnlyWhereItsRuleSays : Obligations.OverrunChangesOnlyWhereItsRuleSays := by
  intro s t hstep
  refine ⟨fun hs ht => ?_, fun hs ht => ?_⟩
  · cases step_effect hstep with
    | writesStatus r v next =>
      obtain ⟨rest, ha⟩ := next
      exact .inl ⟨v, rest, ha, by simpa [hs] using ht⟩
    | resets _ next => exact .inr next
    | _ => simp [hs] at ht
  · cases step_effect hstep with
    | dropsCmd r w next busy => exact ⟨busy, w, next⟩
    | _ => simp [hs] at ht

/-! ### Who writes the buffers -/

/-- Settles O57: OBUF changes in `completes` and `resets`, IBUF in `writesIbuf` and `resets`, and every other effect is
a frame of both. -/
theorem eachBufferHasOneWriter : Obligations.EachBufferHasOneWriter := by
  intro s t hstep
  cases step_effect hstep with
  | completes busy next =>
    have frame := s.advance.run_sameOutside s.lc.instr
    exact ⟨frame.params, fun _ => .inl ⟨busy, next⟩, fun hne => absurd frame.ibuf hne⟩
  | writesIbuf r off n v next idle lower upper =>
    obtain ⟨rest, ha⟩ := next
    exact ⟨rfl, fun hne => absurd rfl hne, fun _ => .inl ⟨idle, off, n, v, rest, ha, lower, upper⟩⟩
  | resets rs next => exact ⟨rfl, fun _ => .inr next, fun _ => .inr next⟩
  | _ => exact ⟨rfl, fun hne => absurd rfl hne, fun hne => absurd rfl hne⟩

/-- A write of IBUF bytes changes no other byte that is read. -/
theorem State.ibufByte_writeIbuf_of_not_covered (s : State) (i k : Nat) (bs : List Byte)
    (h : ¬(i ≤ k ∧ k < i + bs.length)) : { s with ibuf := s.ibuf.setBytes i bs }.ibufByte k = s.ibufByte k :=
  s.ibufByte_congr_at _ k (by rw [Memory.get?_setBytes bs s.ibuf i k, if_neg h]) rfl

/-- Settles O60: no step but a reset draws a byte again. -/
theorem bufferBytesAreStableUntilWritten : Obligations.BufferBytesAreStableUntilWritten := by
  intro s t hstep noReset
  cases step_effect hstep with
  | completes busy next =>
    have frame := s.advance.run_sameOutside s.lc.instr
    have kept := s.ibufByte_congr _ frame.ibuf frame.resets
    exact ⟨fun k hne => absurd (congrFun kept k) hne, fun _ _ => ⟨busy, next⟩⟩
  | writesIbuf r off n v next idle lower upper =>
    obtain ⟨rest, ha⟩ := next
    refine ⟨fun k hne => ?_, fun j hne => absurd rfl hne⟩
    have covered : off.toNat - 0x1000 ≤ k ∧ k < off.toNat - 0x1000 + n := by
      by_contra hout
      exact hne (s.advance.ibufByte_writeIbuf_of_not_covered _ k (valueBytes v n) (by simpa using hout))
    exact ⟨idle, off, n, v, rest, ha, lower, upper, covered⟩
  | resets rs next =>
    obtain ⟨e, rest, ha, he⟩ := next
    exact absurd he (by simp [noReset e rest ha])
  | _ => exact ⟨fun k hne => absurd rfl hne, fun j hne => absurd rfl hne⟩

end Sys2Proof.Machine
end

section
/-! PROOF. The host window and the operands of 20_memory.md: where an access goes and where it ends in a bus error, what
each register access does, the byte order of a buffer access, and what a completion reads and writes. -/

namespace Sys2Proof.Machine

/-! ### Where an access ends in a bus error (R52, R53, R60 to R62) -/

/-- In the register region only an aligned 32-bit access reaches a register (R52). -/
theorem State.target_register_misuse (s : State) (off n : Nat) (h : off < 0x1000) (hne : ¬(n = 4 ∧ off % 4 = 0)) :
    s.target off n = .busError := by
  rcases s.target_cases off n with ht | ⟨-, hn, -, ha⟩ | ⟨-, -, -, hlo, -⟩ | ⟨-, -, -, hlo, -⟩
  · exact ht
  · exact absurd ⟨hn, ha⟩ hne
  · omega
  · omega

/-- While BUSY = 1 no access reaches a buffer (R61). -/
theorem State.target_buffer_of_busy (s : State) (off n : Nat) (hbusy : s.status.busy = true) (h : 0x1000 ≤ off) :
    s.target off n = .busError := by
  rcases s.target_cases off n with ht | ⟨-, -, hlt, -⟩ | ⟨-, -, -, -, -, -, idle⟩ | ⟨-, -, -, -, -, idle⟩
  · exact ht
  · omega
  · simp [hbusy] at idle
  · simp [hbusy] at idle

/-- No access reaches past the end of IBUF (R62). -/
theorem State.target_past_ibuf (s : State) (off n : Nat) (hlo : 0x1000 ≤ off) (hhi : off < 0x2000)
    (hpast : s.params.ibufBytes < off - 0x1000 + n) : s.target off n = .busError := by
  rcases s.target_cases off n with ht | ⟨-, -, hlt, -⟩ | ⟨-, -, -, -, -, hin, -⟩ | ⟨-, -, -, hge, -⟩
  · exact ht
  all_goals omega

/-- No access reaches past the end of OBUF (R62). -/
theorem State.target_past_obuf (s : State) (off n : Nat) (hlo : 0x2000 ≤ off)
    (hpast : s.params.obufBytes < off - 0x2000 + n) : s.target off n = .busError := by
  rcases s.target_cases off n with ht | ⟨-, -, hlt, -⟩ | ⟨-, -, -, -, hlt, -⟩ | ⟨-, -, -, -, hin, -⟩
  · exact ht
  all_goals omega

/-- An access that goes nowhere reads 0 and writes nothing, with the bus-error flag (R55, R56). -/
theorem State.access_of_busError (s : State) (off : Offset) (n : Nat) (v : Word) (h : s.target off.toNat n = .busError) :
    s.memRead off n = (0, true) ∧ s.memWrite off n v = (s, true) :=
  ⟨s.memRead_of_busError off n h, s.memWrite_of_busError off n v h⟩

/-- An aligned 32-bit access below 0x1000 gets no bus error (R52). -/
theorem State.access_register (s : State) (off : Offset) (v : Word) (h : off.toNat < 0x1000) (ha : off.toNat % 4 = 0) :
    (s.memRead off 4).2 = false ∧ (s.memWrite off 4 v).2 = false := by
  rw [s.memRead_register off h ha, s.memWrite_register off v h ha]
  exact ⟨rfl, rfl⟩

/-- A read that gets a bus error went nowhere. -/
theorem State.target_of_memRead_busErr (s : State) (off : Offset) (n : Nat) (h : (s.memRead off n).2 = true) :
    s.target off.toNat n = .busError := by
  unfold State.memRead at h
  cases ht : s.target off.toNat n <;> simp [ht] at h ⊢

/-- A write that gets a bus error leaves the state as it is, one to OBUF as well (R56, R60). -/
theorem State.memWrite_fst_of_busErr (s : State) (off : Offset) (n : Nat) (v : Word) (h : (s.memWrite off n v).2 = true) :
    (s.memWrite off n v).1 = s := by
  unfold State.memWrite at h ⊢
  cases ht : s.target off.toNat n <;> simp [ht] at h ⊢

/-! ### An access that reaches a buffer (R53 to R56) -/

section Reached

variable (s : State) (off : Offset) (n : Nat) (size : n = 1 ∨ n = 2 ∨ n = 4) (aligned : off.toNat % n = 0)
  (idle : s.status.busy = false)
include size aligned idle

theorem State.memRead_ibuf (lower : 0x1000 ≤ off.toNat) (upper : off.toNat < 0x2000)
    (fits : off.toNat - 0x1000 + n ≤ s.params.ibufBytes) :
    s.memRead off n =
      (BitVec.ofNat 32 (leValue ((List.range n).map fun b => s.ibufByte (off.toNat - 0x1000 + b))), false) := by
  simp [State.memRead, s.target_ibuf off.toNat n size aligned lower upper fits idle]

theorem State.memWrite_ibuf (v : Word) (lower : 0x1000 ≤ off.toNat) (upper : off.toNat < 0x2000)
    (fits : off.toNat - 0x1000 + n ≤ s.params.ibufBytes) :
    s.memWrite off n v = ({ s with ibuf := s.ibuf.setBytes (off.toNat - 0x1000) (valueBytes v n) }, false) := by
  simp [State.memWrite, s.target_ibuf off.toNat n size aligned lower upper fits idle]

theorem State.memRead_obuf (lower : 0x2000 ≤ off.toNat) (fits : off.toNat - 0x2000 + n ≤ s.params.obufBytes) :
    s.memRead off n =
      (BitVec.ofNat 32 (leValue ((List.range n).map fun b => s.obufByte (off.toNat - 0x2000 + b))), false) := by
  simp [State.memRead, s.target_obuf off.toNat n size aligned lower fits idle]

end Reached

/-- Every write from the OBUF window on is refused (R60). -/
theorem State.memWrite_obuf (s : State) (off : Offset) (n : Nat) (v : Word) (h : 0x2000 ≤ off.toNat) :
    s.memWrite off n v = (s, true) := by
  rcases s.target_cases off.toNat n with ht | ⟨-, -, hlt, -⟩ | ⟨-, -, -, -, hlt, -⟩ | ⟨ht, -⟩
  · exact s.memWrite_of_busError off n v ht
  · omega
  · omega
  · simp [State.memWrite, ht]

/-! ### Byte order (R54) -/

/-- Bytes put side by side, as numbers. -/
theorem toNat_append_eq_add {m n : Nat} (x : BitVec m) (y : BitVec n) :
    (x ++ y).toNat = x.toNat * 2 ^ n + y.toNat := by
  rw [BitVec.toNat_append, ← Nat.shiftLeft_add_eq_or_of_lt y.isLt, Nat.shiftLeft_eq]

theorem leValue_append (xs ys : List Byte) :
    leValue (xs ++ ys) = leValue xs + 256 ^ xs.length * leValue ys := by
  induction xs with
  | nil => simp [leValue]
  | cons x xs ih => rw [List.cons_append, leValue, leValue, ih, List.length_cons, Nat.pow_succ]; ring

/-- The low n bytes of a value spell its low 8n bits. -/
theorem leValue_valueBytes (v : Word) (n : Nat) : leValue (valueBytes v n) = v.toNat % 2 ^ (8 * n) := by
  have bits : ∀ k, 2 ^ (8 * k) = 256 ^ k := fun k => by rw [Nat.pow_mul]
  induction n with
  | zero => simp [valueBytes, leValue, Nat.mod_one]
  | succ n ih =>
    have next : valueBytes v (n + 1) = valueBytes v n ++ [v.extractLsb' (8 * n) 8] := by
      simp [valueBytes, List.range_succ]
    rw [next, leValue_append, ih, valueBytes_length, bits, bits, Nat.mod_pow_succ]
    simp [leValue, Nat.shiftRight_eq_div_pow, bits]

theorem ofNat_leValue_one (a : Byte) : BitVec.ofNat 32 (leValue [a]) = a.zeroExtend 32 := by
  apply BitVec.eq_of_toNat_eq
  simp [leValue]

theorem ofNat_leValue_two (a b : Byte) : BitVec.ofNat 32 (leValue [a, b]) = (b ++ a).zeroExtend 32 := by
  apply BitVec.eq_of_toNat_eq
  simp only [leValue, BitVec.toNat_ofNat, BitVec.truncate_eq_setWidth, BitVec.toNat_setWidth, toNat_append_eq_add]
  omega

theorem ofNat_leValue_four (a b c d : Byte) : BitVec.ofNat 32 (leValue [a, b, c, d]) = d ++ c ++ b ++ a := by
  apply BitVec.eq_of_toNat_eq
  simp only [leValue, BitVec.toNat_ofNat, toNat_append_eq_add]
  omega

/-! ### The registers (R57 to R59) -/

/-- STATUS as it is read, field by field. -/
theorem Status.word_toNat (st : Status) :
    st.word.toNat = 16 * st.errCode.toNat + 4 * st.ovr.toNat + 2 * st.done.toNat + st.busy.toNat := by
  have code := st.errCode.isLt
  have ovr := st.ovr.toNat_le
  have done := st.done.toNat_le
  have busy := st.busy.toNat_le
  simp only [Status.word, BitVec.truncate_eq_setWidth, BitVec.toNat_setWidth, toNat_append_eq_add,
    BitVec.toNat_ofBool, BitVec.toNat_ofNat]
  omega

theorem irqEnWord_toNat (b : Bool) : (irqEnWord b).toNat = b.toNat := by cases b <;> rfl

/-- No register stands past OBUF_SIZE (10_state.md R20, R36). -/
theorem Reg.ofOffset_reserved (off : Nat) (h : 0x028 ≤ off) : Reg.ofOffset off = none := by
  unfold Reg.ofOffset
  repeat rw [if_neg (by omega)]

theorem State.regRead_reserved (s : State) (off : Nat) (h : 0x028 ≤ off) : s.regRead off = 0 := by
  simp [State.regRead, Reg.ofOffset_reserved off h]

/-- A STATUS write, as the fields it leaves (R58). -/
theorem Status.writeOneToClear_eq (st : Status) (v : Word) :
    st.writeOneToClear v = { st with done := st.done && !v.getLsbD 1, ovr := st.ovr && !v.getLsbD 2 } := by
  unfold Status.writeOneToClear
  cases v.getLsbD 1 <;> cases v.getLsbD 2 <;> simp

/-- Settles O29: each offset of the map is read through `memRead_register`. -/
theorem registerReadsFollowTheMap : Obligations.RegisterReadsFollowTheMap := by
  intro s
  have read := s.memRead_register
  refine ⟨read 0x000 (by decide) (by decide), read 0x004 (by decide) (by decide), read 0x008 (by decide) (by decide),
    read 0x00C (by decide) (by decide), read 0x010 (by decide) (by decide), ?status, ?fields, ?irqEn, ?enable,
    read 0x01C (by decide) (by decide), read 0x020 (by decide) (by decide), read 0x024 (by decide) (by decide),
    fun off hlo hhi ha => ?reserved⟩
  case status => rw [read 0x014 (by decide) (by decide)]
  case fields => rw [read 0x014 (by decide) (by decide)]; exact s.status.word_toNat
  case irqEn => rw [read 0x018 (by decide) (by decide)]
  case enable => rw [read 0x018 (by decide) (by decide)]; exact irqEnWord_toNat s.doneIe
  case reserved => rw [read off hhi ha, s.regRead_reserved off.toNat hlo]

/-- Settles O38: each offset is written through `memWrite_register`, and the offsets without a writable register
through `regWrite_ignored`. -/
theorem registerWritesFollowTheMap : Obligations.RegisterWritesFollowTheMap := by
  intro s v
  have write := fun off => s.memWrite_register off v
  refine ⟨write 0x008 (by decide) (by decide), write 0x00C (by decide) (by decide), ?status,
    write 0x018 (by decide) (by decide), fun off hlt ha hoff => ?ignored⟩
  case status =>
    rw [write 0x014 (by decide) (by decide), ← Status.writeOneToClear_eq]
    rfl
  case ignored =>
    have other : ∀ r : Offset, r ∈ [0x008, 0x00C, 0x014, 0x018] → off.toNat ≠ r.toNat :=
      fun r hr he => hoff (BitVec.eq_of_toNat_eq he ▸ hr)
    rw [write off hlt ha, s.regWrite_ignored off.toNat v ⟨other 0x008 (by decide), other 0x00C (by decide),
      other 0x014 (by decide), other 0x018 (by decide)⟩]

/-- Settles O30: an access below 0x1000 reaches a register or nothing. -/
theorem registerRegionTakesOnlyAlignedWords : Obligations.RegisterRegionTakesOnlyAlignedWords := by
  intro s off n v hlt
  refine ⟨?_, fun hne => s.access_of_busError off n v (s.target_register_misuse off.toNat n hlt hne)⟩
  rintro ⟨rfl, ha⟩
  exact s.access_register off v hlt ha

/-! ### The buffer windows -/

/-- Settles O31: `target_of_misaligned`, and the accesses that reach a buffer. -/
theorem bufferAccessesAreNaturallyAligned : Obligations.BufferAccessesAreNaturallyAligned := by
  intro s off n v hlo
  refine ⟨fun h => s.access_of_busError off n v (s.target_of_misaligned off.toNat n h), ?_⟩
  rintro ⟨size, aligned⟩ idle
  refine ⟨fun hhi fits => ?_, fun hobuf fits => ?_⟩
  · rw [s.memRead_ibuf off n size aligned idle hlo hhi fits, s.memWrite_ibuf off n size aligned idle v hlo hhi fits]
    exact ⟨rfl, rfl⟩
  · rw [s.memRead_obuf off n size aligned idle hobuf fits]

/-- Settles O32: a busy block answers register accesses alone. -/
theorem buffersAreShutWhileBusy : Obligations.BuffersAreShutWhileBusy := by
  intro s off n v hbusy
  exact ⟨fun h => s.access_of_busError off n v (s.target_buffer_of_busy off.toNat n hbusy h), s.access_register off v⟩

/-- Settles O33: with the default parameters the buffers fill their windows, and an aligned access does not cross the
end of its window. -/
theorem accessesPastABufferAreBusErrors : Obligations.AccessesPastABufferAreBusErrors := by
  intro s off n v
  refine ⟨fun hlo hhi hpast => s.access_of_busError off n v (s.target_past_ibuf off.toNat n hlo hhi hpast),
    fun hlo hpast => s.access_of_busError off n v (s.target_past_obuf off.toNat n hlo hpast),
    fun hdef idle size aligned hlo => ?_⟩
  have hoff := off.isLt
  by_cases hhi : off.toNat < 0x2000
  · have fits : off.toNat - 0x1000 + n ≤ s.params.ibufBytes := by
      rw [hdef]
      show _ ≤ 4096
      rcases size with rfl | rfl | rfl <;> omega
    rw [s.memRead_ibuf off n size aligned idle hlo hhi fits]
  · have fits : off.toNat - 0x2000 + n ≤ s.params.obufBytes := by
      rw [hdef]
      show _ ≤ 8192
      rcases size with rfl | rfl | rfl <;> omega
    rw [s.memRead_obuf off n size aligned idle (by omega) fits]

/-- A CMD write leaves OBUF alone, whatever it does (R65). -/
@[simp] theorem State.cmdWrite_obuf (s : State) (w : Word) : (s.cmdWrite w).obuf = s.obuf := by
  rcases s.cmdWrite_cases w with ⟨-, h⟩ | ⟨-, h⟩ | ⟨-, i, -, -, h⟩ <;> rw [h] <;> rfl

/-- Settles O34: `memWrite_obuf`, and no case of a transaction touches OBUF. -/
theorem hostNeverWritesObuf : Obligations.HostNeverWritesObuf := by
  refine ⟨fun s off n v h => s.memWrite_obuf off n v h, fun s t => ?_⟩
  obtain ⟨u, r, ht, hu⟩ := s.transact_cases t
  rw [ht, State.reply_obuf]
  rcases hu with rfl | ⟨w, -, rfl⟩ | ⟨v, -, rfl⟩ | ⟨v, -, rfl⟩ | ⟨v, -, rfl⟩ | ⟨off, n, v, -, -, -, -, -, rfl⟩
  case inr.inl => exact s.cmdWrite_obuf w
  all_goals rfl

/-- Settles O37: a bus error is the target's, and a read adds its reply alone. -/
theorem busErrorsAndReadsHaveNoEffect : Obligations.BusErrorsAndReadsHaveNoEffect := by
  intro s off n v
  refine ⟨fun h => ?_, s.memWrite_fst_of_busErr off n v, rfl⟩
  rw [s.memRead_of_busError off n (s.target_of_memRead_busErr off n h)]

/-- An aligned access whose IBUF bytes are those of a value reads the value's low bits. -/
theorem State.memRead_ibuf_of_bytes (s : State) (off : Offset) (n : Nat) (size : n = 1 ∨ n = 2 ∨ n = 4)
    (aligned : off.toNat % n = 0) (idle : s.status.busy = false) (v : Word) (lower : 0x1000 ≤ off.toNat)
    (upper : off.toNat < 0x2000) (fits : off.toNat - 0x1000 + n ≤ s.params.ibufBytes)
    (bytes : ∀ b < n, s.ibufByte (off.toNat - 0x1000 + b) = v.extractLsb' (8 * b) 8) :
    s.memRead off n = (BitVec.ofNat 32 (v.toNat % 2 ^ (8 * n)), false) := by
  rw [s.memRead_ibuf off n size aligned idle lower upper fits, ← leValue_valueBytes, valueBytes,
    List.map_congr_left fun b hb => bytes b (List.mem_range.mp hb)]

theorem State.memRead_ibuf_byte (s : State) (off : Offset) (idle : s.status.busy = false) (lower : 0x1000 ≤ off.toNat)
    (upper : off.toNat < 0x2000) (fits : off.toNat - 0x1000 + 1 ≤ s.params.ibufBytes) :
    s.memRead off 1 = ((s.ibufByte (off.toNat - 0x1000)).zeroExtend 32, false) := by
  rw [s.memRead_ibuf off 1 (.inl rfl) (Nat.mod_one _) idle lower upper fits, ← ofNat_leValue_one, List.range_one,
    List.map_singleton, Nat.add_zero]

/-- Byte b of a written value is what the IBUF byte holds. -/
theorem State.ibufByte_writeIbuf_valueBytes (s : State) (i n b : Nat) (v : Word) (h : b < n) :
    { s with ibuf := s.ibuf.setBytes i (valueBytes v n) }.ibufByte (i + b) = v.extractLsb' (8 * b) 8 := by
  apply State.ibufByte_of_get?
  rw [Memory.get?_setBytes, valueBytes_length, if_pos (by omega), Nat.add_sub_cancel_left, valueBytes_getElem? v n b h]

/-- Settles O35: the bytes by `ibufByte_writeIbuf_valueBytes`, the whole value by `leValue_valueBytes`. -/
theorem ibufReadsBackAsWritten : Obligations.IbufReadsBackAsWritten := by
  intro s off n v idle size aligned lower upper fits
  obtain ⟨t, ht⟩ : ∃ t, t = { s with ibuf := s.ibuf.setBytes (off.toNat - 0x1000) (valueBytes v n) } := ⟨_, rfl⟩
  have idle_t : t.status.busy = false := by rw [ht, idle]
  have size_t : t.params = s.params := by rw [ht]
  have byte : ∀ b < n, t.ibufByte (off.toNat - 0x1000 + b) = v.extractLsb' (8 * b) 8 :=
    fun b hb => ht ▸ s.ibufByte_writeIbuf_valueBytes (off.toNat - 0x1000) n b v hb
  refine ⟨t, ht ▸ s.memWrite_ibuf off n size aligned idle v lower upper fits, fun b hb => ⟨byte b hb, ?byteRead⟩,
    fun k hk => ?others, by rw [ht], t.memRead_ibuf_of_bytes off n size aligned idle_t v lower upper (size_t ▸ fits) byte⟩
  case byteRead =>
    have inside : off.toNat + b < 0x2000 := by rcases size with rfl | rfl | rfl <;> omega
    have at_byte : (off + BitVec.ofNat 14 b).toNat = off.toNat + b := by
      simp only [BitVec.toNat_add, BitVec.toNat_ofNat]
      omega
    have fits_byte : (off + BitVec.ofNat 14 b).toNat - 0x1000 + 1 ≤ t.params.ibufBytes := by
      rw [at_byte, size_t, Nat.sub_add_comm lower]
      omega
    rw [t.memRead_ibuf_byte (off + BitVec.ofNat 14 b) idle_t (by omega) (by omega) fits_byte, at_byte,
      Nat.sub_add_comm lower, byte b hb]
  case others =>
    rw [ht]
    exact s.ibufByte_writeIbuf_of_not_covered _ k _ (by rw [valueBytes_length]; omega)

/-- Settles O36: the read of n bytes by `memRead_obuf`, their value by `ofNat_leValue_one`, `_two` and `_four`. -/
theorem obufReadsAreLittleEndian : Obligations.ObufReadsAreLittleEndian := by
  intro s off idle lower
  refine ⟨fun fits => ?_, fun aligned fits => ?_, fun aligned fits => ?_⟩
  · rw [s.memRead_obuf off 1 (.inl rfl) (Nat.mod_one _) idle lower fits, ← ofNat_leValue_one]
    simp [List.range_succ]
  · rw [s.memRead_obuf off 2 (.inr (.inl rfl)) aligned idle lower fits, ← ofNat_leValue_two]
    simp [List.range_succ]
  · rw [s.memRead_obuf off 4 (.inr (.inr rfl)) aligned idle lower fits, ← ofNat_leValue_four]
    simp [List.range_succ]

/-! ### A transaction while a command runs (R67, R71) -/

/-- While a command runs a transaction changes IN_LEN, OVR, DONE_IE and the replies at most. -/
theorem State.transact_of_running (s : State) (t : Transaction) (busy : s.status.busy = true)
    (notDone : s.status.done = false) :
    ∃ len ovr ie rs, s.transact t =
      { s with inLen := len, status := { s.status with ovr := ovr }, doneIe := ie, replies := rs } := by
  obtain ⟨u, r, ht, hu⟩ := s.transact_cases t
  rw [ht]
  rcases hu with rfl | ⟨w, -, rfl⟩ | ⟨v, -, rfl⟩ | ⟨v, -, rfl⟩ | ⟨v, -, rfl⟩ | ⟨off, n, v, -, idle, -⟩
  · exact ⟨_, _, _, _, rfl⟩
  · rw [s.cmdWrite_busy w busy]
    exact ⟨_, _, _, _, rfl⟩
  · exact ⟨_, _, _, _, rfl⟩
  · refine ⟨s.inLen, s.status.ovr && !v.getLsbD 2, s.doneIe, r :: s.replies, ?_⟩
    rw [State.acknowledge, Status.writeOneToClear_eq, notDone, Bool.false_and, ← notDone]
    rfl
  · exact ⟨_, _, _, _, rfl⟩
  · simp [busy] at idle

/-- Settles O44: none of the four fields is one of those named. -/
theorem transactionsLeaveARunningCommandAlone : Obligations.TransactionsLeaveARunningCommandAlone := by
  intro s t busy notDone
  obtain ⟨len, ovr, ie, rs, h⟩ := s.transact_of_running t busy notDone
  rw [h]
  exact ⟨rfl, rfl, rfl, rfl, rfl, rfl, rfl, busy, notDone, rfl⟩

/-! ### What a completion writes and reads (R64, R65) -/

/-- `complete` is a success with the bytes it is given (43_command_lifecycle.md R176). -/
theorem State.complete_succeededWith (s : State) (out : List Byte) (h : out.length < 2 ^ 32) :
    s.SucceededWith (s.complete out) out.length (charAt out) where
  busy := rfl
  done := rfl
  errCode := rfl
  outLen := by rw [State.complete_outLen, BitVec.toNat_ofNat, Nat.mod_eq_of_lt h]
  errPos := rfl
  output := fun j hj => by simp [Memory.get?_setBytes_of_lt out _ j hj, charAt, hj]
  rest := fun j hj => s.obufByte_congr _ j (Memory.get?_setBytes_of_le out _ j hj) rfl
  frame := ⟨rfl, rfl, rfl, rfl, rfl, rfl, rfl, rfl, rfl, rfl⟩

/-- `raiseErr` is a failure with the error's code and position, and leaves OBUF alone from DecBound on
(60_exceptions.md R203, R205). -/
theorem State.raiseErr_failedWith (s : State) (v : Variant) (e : CodecError) :
    s.FailedWith (s.raiseErr v e) e.code e.position (s.decBound v) where
  busy := rfl
  done := rfl
  errCode := rfl
  outLen := rfl
  errPos := rfl
  rest := fun j hj => s.obufByte_congr _ j (by
    cases e with
    | invalidCharacter pos => exact Memory.get?_setBytes_of_le _ _ j (by simpa using hj)
    | invalidLength | invalidPaddingCount => rfl) rfl
  frame := ⟨rfl, rfl, rfl, rfl, rfl, rfl, rfl, rfl, rfl, rfl⟩

/-- After an error of code 1 or 2 OBUF is as it was (R205). -/
theorem State.obufAfterError_of_code (s : State) (v : Variant) (e : CodecError) (h : e.code = 1 ∨ e.code = 2) :
    s.obufAfterError v e = s.obuf := by
  cases e with
  | invalidLength | invalidPaddingCount => rfl
  | invalidCharacter pos => simp [CodecError.code] at h

theorem CodecError.code_ne_zero (e : CodecError) : e.code ≠ 0 := by cases e <;> simp [CodecError.code]

/-- The output of a command whose length fits IBUF fits OBUF (00_scope.md R7, R16). -/
theorem State.LatchFits.output_le {s : State} (h : s.LatchFits) {i : Instr} {out : List Byte}
    (hout : i.op = .enc ∧ out = encodeCore i.variant s.lc.len.toNat s.ibufByte ∨
      i.op = .dec ∧ decodeCore i.variant s.lc.len.toNat s.ibufByte = .ok out) : out.length ≤ 8192 := by
  obtain ⟨⟨-, hmax, hobuf, hobufMax⟩, fits⟩ := h
  rcases hout with ⟨-, rfl⟩ | ⟨-, hd⟩
  · exact (encodeCore_length_le_outMax _ _ _ _ fits).trans (hobuf.trans hobufMax)
  · have := length_le_of_decodeCore_ok hd
    omega

/-- Settles O25: a completion is a success with its bytes, or an error that leaves OBUF alone from DecBound on. -/
theorem completionsWriteOnlyTheirOwnOutput : Obligations.CompletionsWriteOnlyTheirOwnOutput := by
  refine ⟨fun i s t fits hexec => ?_, fun s w => ?_⟩
  · rw [exec_eq] at hexec
    cases hexec
    refine ⟨s.run_sameOutside i, ?_⟩
    rcases s.run_cases i with ⟨out, h, hout⟩ | ⟨e, -, -, h⟩ <;> rw [h]
    · have ok := s.complete_succeededWith out ((fits.output_le hout).trans_lt (by norm_num))
      rw [ok.errCode, ok.outLen]
      exact ⟨fun _ => ⟨fun j hj => by rw [ok.output j hj]; rfl, ok.rest⟩, fun hc => absurd hc (by decide),
        fun hc => absurd hc (by decide)⟩
    · have failed := s.raiseErr_failedWith i.variant e
      rw [failed.errCode]
      exact ⟨fun hc => absurd hc e.code_ne_zero, s.obufAfterError_of_code i.variant e, fun _ => failed.rest⟩
  · rw [s.memWrite_register 0x008 w (by decide) (by decide)]
    exact s.cmdWrite_obuf w

/-- The result of `complete` is a function of its bytes. -/
theorem State.result_complete (s : State) (out : List Byte) :
    (s.complete out).result =
      (codeOk, BitVec.ofNat 32 out.length, noErrPos, (List.range (BitVec.ofNat 32 out.length).toNat).map (charAt out)) := by
  have bytes : ∀ j ∈ List.range (BitVec.ofNat 32 out.length).toNat, (s.complete out).obufByte j = charAt out j := by
    intro j hj
    have hlt : j < out.length := (List.mem_range.mp hj).trans_le (by simpa using Nat.mod_le _ _)
    apply State.obufByte_of_get?
    simp [Memory.get?_setBytes_of_lt out _ j hlt, charAt, hlt]
  unfold State.result
  rw [State.complete_outLen, List.map_congr_left bytes]
  rfl

/-- The result of `raiseErr` is a function of the error. -/
theorem State.result_raiseErr (s : State) (v : Variant) (e : CodecError) :
    (s.raiseErr v e).result = (e.code, 0, e.position, []) := rfl

/-- The result of a command is a function of the length in LC and the input bytes below it (R64). -/
theorem State.result_run_congr (i : Instr) (s s' : State) (hlen : s.lc.len = s'.lc.len)
    (hbytes : ∀ k < s.lc.len.toNat, s.ibufByte k = s'.ibufByte k) : (s.run i).result = (s'.run i).result := by
  unfold State.run
  cases i.op with
  | enc =>
    simp only [State.runEncode]
    rw [encodeCore_congr _ _ _ _ hbytes, hlen, State.result_complete, State.result_complete]
  | dec =>
    simp only [State.runDecode]
    rw [decodeCore_congr _ _ _ _ hbytes, hlen]
    cases decodeCore i.variant s'.lc.len.toNat s'.ibufByte with
    | ok out => simp only [State.result_complete]
    | err e => simp only [State.result_raiseErr]

/-- Settles O26, by `result_run_congr`. -/
theorem resultDependsOnlyOnTheOperands : Obligations.ResultDependsOnlyOnTheOperands :=
  fun i s s' hlen hbytes => ⟨_, _, exec_eq i s, exec_eq i s', State.result_run_congr i s s' hlen hbytes⟩

end Sys2Proof.Machine
end

section
/-! PROOF. The command words of 30_encoding.md: the three fields of a word as arithmetic on its number, what the decoder
answers in each case, and that the decoder and the encoder undo each other. -/

namespace Sys2Proof.Machine

open Laws.Encoding (variantNumber)

/-! ### The fields of a command word (R81 to R83) -/

/-- RES is 0 exactly for the numbers below 16. -/
theorem resBits_eq_zero_iff (w : Word) : w.extractLsb' 4 28 = 0 ↔ w.toNat < 16 := by
  rw [← BitVec.toNat_inj, BitVec.extractLsb'_toNat, Nat.shiftRight_eq_div_pow]
  have := w.isLt
  simp only [BitVec.ofNat_eq_ofNat, BitVec.toNat_ofNat]
  omega

/-- Where RES is 0, VARIANT is half of the number. -/
theorem variantBits_toNat {w : Word} (h : w.toNat < 16) : (w.extractLsb' 1 3).toNat = w.toNat / 2 := by
  rw [BitVec.extractLsb'_toNat, Nat.shiftRight_eq_div_pow]
  omega

/-- OP is the parity of the number. -/
theorem toNat_mod_two_eq_opBit (w : Word) : w.toNat % 2 = if opOfBit (w.getLsbD 0) = .dec then 1 else 0 := by
  rcases Nat.mod_two_eq_zero_or_one w.toNat with h | h <;> simp [opOfBit, BitVec.getLsbD, Nat.testBit_zero, h]

/-- The field value of a variant is its number (R82). -/
theorem variantOfBits_eq_some_iff (b : BitVec 3) (v : Variant) :
    variantOfBits b = some v ↔ b = BitVec.ofNat 3 (variantNumber v) := by
  cases v <;> revert b <;> decide

/-- The reserved values of VARIANT are 5, 6 and 7 (R82). -/
theorem variantOfBits_eq_none_iff (b : BitVec 3) : variantOfBits b = none ↔ 5 ≤ b.toNat := by
  revert b; decide

/-- R81 to R84 for every command, from the law of each. -/
theorem encoding_statement : ∀ i : Instr, Laws.Encoding.Statement i
  | .encB64 => Laws.Encoding.encB64
  | .decB64 => Laws.Encoding.decB64
  | .encB64url => Laws.Encoding.encB64url
  | .decB64url => Laws.Encoding.decB64url
  | .encB32 => Laws.Encoding.encB32
  | .decB32 => Laws.Encoding.decB32
  | .encB32hex => Laws.Encoding.encB32hex
  | .decB32hex => Laws.Encoding.decB32hex
  | .encB16 => Laws.Encoding.encB16
  | .decB16 => Laws.Encoding.decB16

/-! ### What the decoder answers (R84, R85) -/

/-- A word is a command exactly where RES is 0 and the two other fields name its variant and operation. -/
theorem decode_eq_ok_iff_fields (w : Word) (i : Instr) :
    decode w = .ok i ↔
      w.extractLsb' 4 28 = 0 ∧ variantOfBits (w.extractLsb' 1 3) = some i.variant ∧ opOfBit (w.getLsbD 0) = i.op := by
  obtain ⟨-, hfields, -⟩ := encoding_statement i
  unfold decode
  split
  next hres => exact iff_of_false (by simp) fun ⟨hzero, _⟩ => hres hzero
  next hres =>
    cases hvar : variantOfBits (w.extractLsb' 1 3) with
    | none => simp
    | some v =>
      constructor
      · rintro ⟨⟩
        exact ⟨not_not.mp hres, by simp, by simp⟩
      · rintro ⟨-, hv, ho⟩
        cases hv
        simp only [ho, hfields]

theorem decode_of_resBits {w : Word} (h : 16 ≤ w.toNat) : decode w = .error .reservedBits := by
  have hres : w.extractLsb' 4 28 ≠ 0 := (resBits_eq_zero_iff w).not.mpr (by omega)
  simp only [decode, if_pos hres]

theorem decode_of_reservedVariant {w : Word} (lower : 10 ≤ w.toNat) (upper : w.toNat < 16) :
    decode w = .error .reservedVariant := by
  have hres : w.extractLsb' 4 28 = 0 := (resBits_eq_zero_iff w).mpr upper
  have hvar : variantOfBits (w.extractLsb' 1 3) = none := by
    rw [variantOfBits_eq_none_iff, variantBits_toNat upper]
    omega
  simp only [decode, hres, hvar, ne_eq, not_true_eq_false, if_false]

theorem exists_decode_eq_ok {w : Word} (h : w.toNat < 10) : ∃ i, decode w = .ok i := by
  have hres : w.toNat < 16 := by omega
  obtain ⟨v, hvar⟩ : ∃ v, variantOfBits (w.extractLsb' 1 3) = some v := by
    rw [← Option.ne_none_iff_exists', Ne, variantOfBits_eq_none_iff, variantBits_toNat hres]
    omega
  exact ⟨Instr.ofFields (opOfBit (w.getLsbD 0)) v,
    (decode_eq_ok_iff_fields w _).mpr ⟨(resBits_eq_zero_iff w).mpr hres, by simpa using hvar, by simp⟩⟩

/-! ### The decoder and the encoder (R84, R87) -/

@[simp] theorem decode_encode (i : Instr) : decode (encode i) = .ok i := by
  cases i <;> rfl

/-- The CMD value of a command is the only word that decodes to it: its three fields fix the number
2*VARIANT + OP. -/
theorem decode_eq_ok_iff (w : Word) (i : Instr) : decode w = .ok i ↔ w = encode i := by
  refine ⟨fun h => ?_, fun h => h ▸ decode_encode i⟩
  obtain ⟨hres, hvar, hop⟩ := (decode_eq_ok_iff_fields w i).mp h
  obtain ⟨-, -, hnum⟩ := encoding_statement i
  have small : w.toNat < 16 := (resBits_eq_zero_iff w).mp hres
  have half : w.toNat / 2 = variantNumber i.variant := by
    rw [← variantBits_toNat small, (variantOfBits_eq_some_iff _ _).mp hvar]
    cases i.variant <;> rfl
  have parity : w.toNat % 2 = if i.op = .dec then 1 else 0 := hop ▸ toNat_mod_two_eq_opBit w
  apply BitVec.eq_of_toNat_eq
  rw [hnum, ← half, ← parity]
  omega

/-- The four bytes of a word, the last one on top, are the word. -/
theorem append_extractBytes (w : Word) :
    w.extractLsb' 24 8 ++ w.extractLsb' 16 8 ++ w.extractLsb' 8 8 ++ w.extractLsb' 0 8 = w := by
  apply BitVec.eq_of_toNat_eq
  have := w.isLt
  simp only [toNat_append_eq_add, BitVec.extractLsb'_toNat, Nat.shiftRight_eq_div_pow]
  omega

/-- The decoder on the bytes of a word is the decoder on the word, and leaves what follows (R54, R80). -/
theorem decodeBytes_wordBytes {w : Word} {i : Instr} (h : decode w = .ok i) (rest : List Byte) :
    decodeBytes (wordBytes w ++ rest) = .ok (i, rest) := by
  simp only [wordBytes, List.cons_append, List.nil_append, decodeBytes]
  rw [append_extractBytes, h]

/-! ### The statements -/

/-- Settles O2: the words by `decode_eq_ok_iff`, the fields by `decode_eq_ok_iff_fields`. -/
theorem decodeAcceptsExactlyTheTableWords : Obligations.DecodeAcceptsExactlyTheTableWords := by
  refine ⟨fun w => ?words, fun w i h => ?fields⟩
  case words =>
    exact ⟨decode_eq_ok_iff w .encB64, decode_eq_ok_iff w .decB64, decode_eq_ok_iff w .encB64url,
      decode_eq_ok_iff w .decB64url, decode_eq_ok_iff w .encB32, decode_eq_ok_iff w .decB32,
      decode_eq_ok_iff w .encB32hex, decode_eq_ok_iff w .decB32hex, decode_eq_ok_iff w .encB16,
      decode_eq_ok_iff w .decB16⟩
  case fields =>
    obtain ⟨hres, hvar, hop⟩ := (decode_eq_ok_iff_fields w i).mp h
    refine ⟨hop.symm, ?_, hres⟩
    rw [(variantOfBits_eq_some_iff _ _).mp hvar]
    cases i.variant <;> rfl

/-- Settles O4: one lemma for each of the three ranges. -/
theorem illegalWordsAreRejectedByName : Obligations.IllegalWordsAreRejectedByName :=
  fun _ => ⟨decode_of_resBits, decode_of_reservedVariant, exists_decode_eq_ok⟩

/-- Settles O1: each row's bits spell the CMD value that `encode` gives. -/
theorem tableWordsDecodeToTheirCommands : Obligations.TableWordsDecodeToTheirCommands :=
  ⟨decode_encode .encB64, decode_encode .decB64, decode_encode .encB64url, decode_encode .decB64url,
    decode_encode .encB32, decode_encode .decB32, decode_encode .encB32hex, decode_encode .decB32hex,
    decode_encode .encB16, decode_encode .decB16⟩

/-- Settles O3: `decode_encode`, on the word and on its bytes. -/
theorem encodedCommandDecodesBack : Obligations.EncodedCommandDecodesBack :=
  fun i rest => ⟨decode_encode i, decodeBytes_wordBytes (decode_encode i) rest⟩

end Sys2Proof.Machine
end

section
/-! PROOF. The alphabets of 40_alphabet.md: the inverse lookup undoes the table, each table is a few runs of consecutive
codes, which makes the lookup a table of code ranges, and the two Base64 tables differ in two symbols only. -/

namespace Sys2Proof.Machine

/-! ### The lookup and its inverse (R106, R107) -/

/-- Settles O5: both sides compute. -/
theorem alphabetsAreTheStringsOfTheirRules : Obligations.AlphabetsAreTheStringsOfTheirRules :=
  ⟨by decide, by decide, by decide, by decide, by decide⟩

theorem valueOf_eq_some_iff (v : Variant) (c : Byte) (t : Nat) :
    valueOf v c = some t ↔ t < 2 ^ width v ∧ symbolOf v t = c :=
  ⟨symbolOf_valueOf v c t, fun ⟨ht, hc⟩ => hc ▸ valueOf_symbolOf v t ht⟩

theorem valueOf_eq_none_iff (v : Variant) (c : Byte) : valueOf v c = none ↔ ∀ t < 2 ^ width v, symbolOf v t ≠ c := by
  simp only [Option.eq_none_iff_forall_ne_some, ne_eq, valueOf_eq_some_iff, not_and]

/-- Two values with one symbol are equal: the inverse lookup of that symbol finds both. -/
theorem symbolOf_inj {v : Variant} {t u : Nat} (ht : t < 2 ^ width v) (hu : u < 2 ^ width v)
    (h : symbolOf v t = symbolOf v u) : t = u :=
  Option.some.inj (valueOf_symbolOf v t ht ▸ h ▸ valueOf_symbolOf v u hu)

/-- Settles O7: `valueOf_eq_some_iff` and `valueOf_eq_none_iff`. -/
theorem valueLookupInvertsTheAlphabet : Obligations.ValueLookupInvertsTheAlphabet :=
  fun v c => ⟨valueOf_eq_some_iff v c, valueOf_eq_none_iff v c⟩

/-- Settles O6: the laws of the table, and `symbolOf_inj`. -/
theorem alphabetsAreTotalAndInjective : Obligations.AlphabetsAreTotalAndInjective :=
  ⟨alphabet_length, rfl, rfl, rfl, rfl, rfl, fun _ _ _ => symbolOf_inj, symbolOf_ne_pad⟩

/-! ### The tables as runs of consecutive codes (R108) -/

/-- The `n` consecutive codes from `a` on. -/
def codeRun (a n : Nat) : List Byte := (List.range' a n).map (BitVec.ofNat 8)

@[simp] theorem codeRun_zero (a : Nat) : codeRun a 0 = [] := rfl

theorem codeRun_succ (a n : Nat) : codeRun a (n + 1) = BitVec.ofNat 8 a :: codeRun (a + 1) n := rfl

/-- The runs of consecutive codes of ALPHA_v, in the order of their values; nothing follows the last one. -/
theorem alphabet_eq_codeRuns :
    alphabet .b64 = codeRun 0x41 26 ++ codeRun 0x61 26 ++ codeRun 0x30 10 ++ codeRun 0x2B 1 ++ codeRun 0x2F 1 ++ [] ∧
    alphabet .b64url = codeRun 0x41 26 ++ codeRun 0x61 26 ++ codeRun 0x30 10 ++ codeRun 0x2D 1 ++ codeRun 0x5F 1 ++ [] ∧
    alphabet .b32 = codeRun 0x41 26 ++ codeRun 0x32 6 ++ [] ∧
    alphabet .b32hex = codeRun 0x30 10 ++ codeRun 0x41 22 ++ [] ∧
    alphabet .b16 = codeRun 0x30 10 ++ codeRun 0x41 6 ++ [] := by decide

/-- The lookup in a run of codes gives the distance from its first code; a byte outside the run is looked up in what
follows the run. -/
theorem indexFrom_codeRun_append (c : Byte) (a n t : Nat) (ys : List Byte) (h : a + n ≤ 256) :
    indexFrom c t (codeRun a n ++ ys) =
      if a ≤ c.toNat ∧ c.toNat < a + n then some (t + (c.toNat - a)) else indexFrom c (t + n) ys := by
  induction n generalizing a t with
  | zero => rw [if_neg (by omega), codeRun_zero, List.nil_append, Nat.add_zero]
  | succ n ih =>
    have head : BitVec.ofNat 8 a = c ↔ c.toNat = a := by
      rw [← BitVec.toNat_inj, BitVec.toNat_ofNat, Nat.mod_eq_of_lt (by omega), eq_comm]
    simp only [codeRun_succ, List.cons_append, indexFrom, head, ih (a + 1) (t + 1) (by omega)]
    by_cases hit : c.toNat = a
    · rw [if_pos hit, if_pos (by omega), hit, Nat.sub_self, Nat.add_zero]
    · rw [if_neg hit, show t + 1 + n = t + (n + 1) by omega]
      exact if_ctx_congr (by omega) (fun _ => congrArg some (by omega)) fun _ => rfl

/-- The inverse lookup runs through the code ranges of R108. -/
theorem valueOf_eq_rangeValue (v : Variant) (c : Byte) : valueOf v c = rangeValue v c.toNat := by
  cases v <;> simp only [valueOf, rangeValue, alphabet_eq_codeRuns, List.append_assoc,
    indexFrom_codeRun_append, Nat.reduceAdd, Nat.reduceLeDiff, indexFrom]
  all_goals
    repeat refine if_ctx_congr (by omega) (fun _ => congrArg some (by omega)) fun _ => ?_
    rfl

/-- Settles O8: `valueOf_eq_rangeValue`. -/
theorem valueLookupMatchesTheCodeRanges : Obligations.ValueLookupMatchesTheCodeRanges := valueOf_eq_rangeValue

/-! ### Bytes without a value, and the two cases of Base64 (R109, R110) -/

/-- Every code with a value stands between `+` and `z` and is not `=`. -/
theorem valueOf_eq_none_of_outside (v : Variant) (c : Byte) (h : c.toNat < 0x2B ∨ c.toNat = 0x3D ∨ 0x7A < c.toNat) :
    valueOf v c = none := by
  rw [valueOf_eq_rangeValue]
  cases v <;> simp only [rangeValue]
  all_goals
    repeat rw [if_neg (by omega)]

/-- No code from `a` on has a value in Base32 or Base16 (R110). -/
theorem valueOf_eq_none_of_lowerCase {v : Variant} (hv : v = .b32 ∨ v = .b32hex ∨ v = .b16) (c : Byte)
    (h : 0x61 ≤ c.toNat) : valueOf v c = none := by
  rw [valueOf_eq_rangeValue]
  rcases hv with rfl | rfl | rfl <;> simp only [rangeValue]
  all_goals
    repeat rw [if_neg (by omega)]

/-- In Base64 a lower-case letter follows the upper-case letters. -/
theorem valueOf_base64_lowerCase {v : Variant} (hv : v = .b64 ∨ v = .b64url) (c : Byte)
    (lower : 0x61 ≤ c.toNat) (upper : c.toNat ≤ 0x7A) : valueOf v c = some (c.toNat - 0x47) := by
  rw [valueOf_eq_rangeValue]
  rcases hv with rfl | rfl <;> exact (if_neg (by omega)).trans (if_pos ⟨lower, upper⟩)

theorem valueOf_base64_upperCase {v : Variant} (hv : v = .b64 ∨ v = .b64url) (c : Byte)
    (lower : 0x41 ≤ c.toNat) (upper : c.toNat ≤ 0x5A) : valueOf v c = some (c.toNat - 0x41) := by
  rw [valueOf_eq_rangeValue]
  rcases hv with rfl | rfl <;> exact if_pos ⟨lower, upper⟩

/-- Settles O9: the ranges of bytes without a value, and the values of a Base64 letter in its two cases. -/
theorem lookupIsExactOnTheByteValue : Obligations.LookupIsExactOnTheByteValue := by
  refine ⟨valueOf_pad, fun v c h => ?high, fun v c h => ?control, fun c h _ => ?base32, fun c h _ => ?base16,
    fun c lower upper v hv => ?base64⟩
  case high => exact valueOf_eq_none_of_outside v c (by omega)
  case control => exact valueOf_eq_none_of_outside v c (by omega)
  case base32 =>
    exact ⟨valueOf_eq_none_of_lowerCase (by simp) c h, valueOf_eq_none_of_lowerCase (by simp) c h⟩
  case base16 => exact valueOf_eq_none_of_lowerCase (by simp) c h
  case base64 =>
    have variants : v = .b64 ∨ v = .b64url := by simpa using hv
    have upperCase : (c - 0x20).toNat = c.toNat - 0x20 := BitVec.toNat_sub_of_le (BitVec.le_def.mpr (by simp; omega))
    rw [valueOf_base64_lowerCase variants c lower upper,
      valueOf_base64_upperCase variants (c - 0x20) (by omega) (by omega), upperCase]
    simp only [Option.isSome_some, ne_eq, Option.some.injEq, true_and]
    omega

/-! ### The URL-safe alphabet (R102, R128) -/

/-- The URL-safe character for a character of standard Base64 (R102). -/
def urlSafeChar (c : Byte) : Byte := if c = 0x2B then 0x2D else if c = 0x2F then 0x5F else c

theorem alphabet_b64url : alphabet .b64url = (alphabet .b64).map urlSafeChar := by decide

theorem symbolOf_b64url (t : Nat) : symbolOf .b64url t = urlSafeChar (symbolOf .b64 t) := by
  rw [symbolOf, alphabet_b64url]
  exact List.getD_map (alphabet .b64) 0 urlSafeChar

/-- The two variants pack the same windows (R120) and pad with the same character, which is its own URL-safe one. -/
theorem encodeGroup_b64url (k : Nat) (b : Nat → Byte) :
    encodeGroup .b64url k b = (encodeGroup .b64 k b).map urlSafeChar := by
  simp only [encodeGroup, symbolOf_b64url, List.map_append, List.map_map, List.map_replicate]
  rfl

/-- Settles O15: group by group, from `encodeGroup_b64url`. -/
theorem urlSafeTextDiffersOnlyAt62And63 : Obligations.UrlSafeTextDiffersOnlyAt62And63 := by
  intro n b
  simp only [encodeCore, encodeGroup_b64url, ← List.map_flatMap]
  rfl

end Sys2Proof.Machine
end

section
/-! PROOF. The encoder of 41_encode.md: EncodeCore's text is the input's bit stream cut into W-bit windows, each text
character follows from that, and DecodeCore cuts the same stream into bytes, which gives the input back. -/

namespace Sys2Proof.Machine

/-! ### The bit stream (00_scope.md R9) -/

@[simp] theorem streamValue_zero (n : Nat) (b : Nat → Byte) (m : Nat) : streamValue n b m 0 = 0 := rfl

theorem streamValue_succ (n : Nat) (b : Nat → Byte) (m w : Nat) :
    streamValue n b m (w + 1) = 2 * streamValue n b m w + (streamBit n b (m + w)).toNat := rfl

theorem inputNat_of_lt {n : Nat} (b : Nat → Byte) {i : Nat} (h : i < n) : inputNat n b i = (b i).toNat := if_pos h

theorem inputNat_lt (n : Nat) (b : Nat → Byte) (i : Nat) : inputNat n b i < 2 ^ 8 := by
  unfold inputNat
  split_ifs
  · exact (b i).isLt
  · decide

theorem streamValue_lt (n : Nat) (b : Nat → Byte) (m w : Nat) : streamValue n b m w < 2 ^ w := by
  induction w with
  | zero => simp
  | succ w ih =>
    have := Bool.toNat_le (streamBit n b (m + w))
    rw [streamValue_succ, Nat.pow_succ]
    omega

/-- The bits from m on, u of them and then w more. -/
theorem streamValue_add (n : Nat) (b : Nat → Byte) (m u w : Nat) :
    streamValue n b m (u + w) = streamValue n b m u * 2 ^ w + streamValue n b (m + u) w := by
  induction w with
  | zero => simp
  | succ w ih =>
    rw [← Nat.add_assoc, streamValue_succ, ih, streamValue_succ, Nat.add_assoc m u w, Nat.pow_succ]
    ring

/-- Bits o to o + w − 1 of the number that `total` stream bits spell. -/
theorem streamValue_slice (n : Nat) (b : Nat → Byte) (m : Nat) {o w total : Nat} (h : o + w ≤ total) :
    streamValue n b (m + o) w = streamValue n b m total / 2 ^ (total - (o + w)) % 2 ^ w := by
  obtain ⟨d, rfl⟩ := Nat.exists_eq_add_of_le h
  rw [Nat.add_sub_cancel_left, streamValue_add n b m (o + w) d, Nat.mul_comm,
    Nat.mul_add_div (Nat.two_pow_pos d), Nat.div_eq_of_lt (streamValue_lt ..), Nat.add_zero,
    streamValue_add n b m o w, Nat.mul_add_mod_self_right, Nat.mod_eq_of_lt (streamValue_lt ..)]

/-- The window of R120 on a stretch of the stream is a shorter stretch of the stream. -/
theorem bitWindow_streamValue (n : Nat) (b : Nat → Byte) (m : Nat) {total w t : Nat} (h : (t + 1) * w ≤ total) :
    bitWindow total w t (streamValue n b m total) = streamValue n b (m + t * w) w := by
  rw [Nat.succ_mul] at h
  rw [bitWindow, Nat.succ_mul, streamValue_slice n b m h]

/-- Neighbouring w-bit stretches put together are one stretch. -/
theorem concatBits_streamValue (n : Nat) (b : Nat → Byte) (m w k : Nat) :
    concatBits w ((List.range k).map fun t => streamValue n b (m + t * w) w) = streamValue n b m (k * w) := by
  induction k with
  | zero => simp [concatBits]
  | succ k ih =>
    rw [Nat.succ_mul, streamValue_add, ← ih, List.range_succ, List.map_append]
    simp [concatBits]

theorem streamBit_toNat (n : Nat) (b : Nat → Byte) (i : Nat) {o : Nat} (h : o < 8) :
    (streamBit n b (8 * i + o)).toNat = inputNat n b i / 2 ^ (7 - o) % 2 := by
  have hbyte : (8 * i + o) / 8 = i := by omega
  have hbit : (8 * i + o) % 8 = o := by omega
  rw [streamBit, hbyte, hbit, inputNat]
  split_ifs with hi
  · rw [decide_eq_true hi, Bool.true_and, BitVec.getLsbD, Nat.toNat_testBit]
  · simp [hi]

/-- The first w bits of byte i. -/
theorem streamValue_byteStart (n : Nat) (b : Nat → Byte) (i : Nat) {w : Nat} (h : w ≤ 8) :
    streamValue n b (8 * i) w = inputNat n b i / 2 ^ (8 - w) := by
  induction w with
  | zero => exact (Nat.div_eq_of_lt (inputNat_lt n b i)).symm
  | succ w ih =>
    rw [streamValue_succ, ih (by omega), streamBit_toNat n b i (by omega),
      show 8 - w = 7 - w + 1 by omega, show 8 - (w + 1) = 7 - w by omega, Nat.pow_succ, ← Nat.div_div_eq_div_mul]
    exact Nat.div_add_mod ..

theorem streamValue_byte (n : Nat) (b : Nat → Byte) (i : Nat) : streamValue n b (8 * i) 8 = inputNat n b i := by
  simp [streamValue_byteStart]

/-- w bits inside byte i, from its bit o on. -/
theorem streamValue_inByte (n : Nat) (b : Nat → Byte) (i : Nat) {o w : Nat} (h : o + w ≤ 8) :
    streamValue n b (8 * i + o) w = inputNat n b i / 2 ^ (8 - (o + w)) % 2 ^ w := by
  rw [streamValue_slice n b (8 * i) h, streamValue_byte]

/-- The last u bits of byte i and the first w bits of the next. -/
theorem streamValue_twoBytes (n : Nat) (b : Nat → Byte) (i : Nat) {u w : Nat} (hu : u ≤ 8) (hw : w ≤ 8) :
    streamValue n b (8 * i + (8 - u)) (u + w)
      = inputNat n b i % 2 ^ u * 2 ^ w + inputNat n b (i + 1) / 2 ^ (8 - w) := by
  rw [streamValue_add, streamValue_inByte n b i (by omega), show 8 * i + (8 - u) + u = 8 * (i + 1) by omega,
    streamValue_byteStart n b (i + 1) hw, show 8 - (8 - u + u) = 0 by omega, Nat.pow_zero, Nat.div_one]

theorem streamValue_of_le (n : Nat) (b : Nat → Byte) {m : Nat} (h : 8 * n ≤ m) (w : Nat) : streamValue n b m w = 0 := by
  induction w with
  | zero => rfl
  | succ w ih =>
    have : ¬(m + w) / 8 < n := by omega
    simp [streamValue_succ, ih, streamBit, this]

/-! ### The groups of the input (R120 to R122) -/

theorem ceilDiv_zero {d : Nat} (hd : 0 < d) : ceilDiv 0 d = 0 := by
  rw [ceilDiv, Nat.div_eq_of_lt (by omega)]

/-- Group g starts inside the input just when it is one of the ceil(n/d) groups. -/
theorem lt_ceilDiv_iff {g n d : Nat} (hd : 0 < d) : g < ceilDiv n d ↔ g * d < n := by
  rw [ceilDiv, Nat.lt_iff_add_one_le, Nat.le_div_iff_mul_le hd, Nat.succ_mul]
  omega

/-- A non-empty input is q full groups and a last one of r bytes, full or not. -/
theorem exists_lastGroup (v : Variant) {n : Nat} (hn : 0 < n) :
    ∃ q r, 0 < r ∧ r ≤ gIn v ∧ n = q * gIn v + r ∧ ceilDiv n (gIn v) = q + 1 := by
  have hd := gIn_pos v
  have hmod := Nat.mod_lt (n - 1) hd
  have hdiv := Nat.div_add_mod' (n - 1) (gIn v)
  refine ⟨(n - 1) / gIn v, (n - 1) % gIn v + 1, by omega, by omega, by omega, ?_⟩
  rw [ceilDiv, show n + gIn v - 1 = n - 1 + gIn v by omega, Nat.add_div_right _ hd]

/-- R122's table s(k), in general: symbol t of a group of k bytes is significant if its window meets the 8k bits. -/
theorem lt_groupSymbols_iff (v : Variant) {k t : Nat} (hk : 0 < k) (hle : k ≤ gIn v) (ht : t < gOut v) :
    t < groupSymbols v k ↔ t * width v < 8 * k := by
  revert hk; revert t; revert k
  cases v <;> decide

@[simp] theorem groupSymbols_full (v : Variant) : groupSymbols v (gIn v) = gOut v := if_pos rfl

/-- The first bit of a symbol, counted over the groups before it. -/
theorem firstBit_eq (v : Variant) (g t : Nat) :
    (g * gOut v + t) * width v = 8 * (g * gIn v) + t * width v := by
  rw [Nat.add_mul, Nat.mul_assoc, Nat.mul_comm (gOut v), ← bits_per_group, Nat.mul_left_comm]

/-- Symbol j of q full groups and a last one of r bytes is significant if its window meets the input's bits. -/
theorem significant_iff (v : Variant) (q : Nat) {r j : Nat} (hr : 0 < r) (hle : r ≤ gIn v) (hj : j < (q + 1) * gOut v) :
    j < q * gOut v + groupSymbols v r ↔ j * width v < 8 * (q * gIn v + r) := by
  rw [Nat.succ_mul] at hj
  by_cases hlast : q * gOut v ≤ j
  · obtain ⟨t, rfl⟩ := Nat.exists_eq_add_of_le hlast
    rw [firstBit_eq, Nat.add_lt_add_iff_left, lt_groupSymbols_iff v hr hle (by omega)]
    omega
  · have hbit : j * width v ≤ q * gOut v * width v := Nat.mul_le_mul_right _ (by omega)
    have := firstBit_eq v q 0
    simp only [Nat.add_zero, Nat.zero_mul] at this
    omega

/-- The same of a group of the input, the k bytes that EncodeCore takes for it. -/
theorem lt_groupSymbols_min_iff (v : Variant) {n g t : Nat} (hg : g * gIn v < n) (ht : t < gOut v) :
    t < groupSymbols v (min (gIn v) (n - g * gIn v)) ↔ (g * gOut v + t) * width v < 8 * n := by
  rcases le_total (n - g * gIn v) (gIn v) with hlast | hfull
  · rw [min_eq_right hlast, ← Nat.add_lt_add_iff_left (k := g * gOut v),
      significant_iff v g (by omega) hlast (by rw [Nat.succ_mul]; omega), Nat.add_sub_of_le hg.le]
  · have hbit := (lt_groupSymbols_iff v (gIn_pos v) le_rfl ht).mp (by simpa using ht)
    rw [min_eq_left hfull, firstBit_eq, groupSymbols_full]
    omega

/-- The value of group g is the 8*G_in stream bits from its first byte on. -/
theorem groupValue_eq_streamValue (v : Variant) (n : Nat) (b : Nat → Byte) (g : Nat) :
    groupValue v (min (gIn v) (n - g * gIn v)) (fun i => b (g * gIn v + i))
      = streamValue n b (8 * (g * gIn v)) (8 * gIn v) := by
  rw [Nat.mul_comm 8 (gIn v), ← concatBits_streamValue, groupValue]
  refine congrArg _ (List.map_congr_left fun j hj => ?_)
  have hj := List.mem_range.mp hj
  rw [Nat.mul_comm j 8, ← Nat.mul_add, streamValue_byte, inputNat]
  exact if_congr (by omega) rfl rfl

/-! ### The text, character by character -/

/-- Character j of the text: the symbol of the stream's window j, or padding where that window holds no input bit. -/
def streamChar (v : Variant) (n : Nat) (b : Nat → Byte) (j : Nat) : Byte :=
  if j * width v < 8 * n then symbolOf v (streamValue n b (j * width v) (width v)) else padChar

/-- EncodeCore cuts the stream into windows (R120 to R122). -/
theorem charAt_encodeCore (v : Variant) (n : Nat) (b : Nat → Byte) {j : Nat} (hj : j < (encodeCore v n b).length) :
    charAt (encodeCore v n b) j = streamChar v n b j := by
  rw [encodeCore_length] at hj
  have hg : j / gOut v < ceilDiv n (gIn v) := (Nat.div_lt_iff_lt_mul (gOut_pos v)).mpr hj
  have ht := Nat.mod_lt j (gOut_pos v)
  have window : (j % gOut v + 1) * width v ≤ 8 * gIn v := by
    rw [bits_per_group, Nat.mul_comm (width v)]
    exact Nat.mul_le_mul_right _ ht
  rw [charAt, List.getD, encodeCore_getElem? v n b j hg, encodeGroup_getElem? v _ _ _ ht, Option.getD_some,
    groupValue_eq_streamValue, bitWindow_streamValue n b _ window, ← firstBit_eq,
    if_congr (lt_groupSymbols_min_iff v ((lt_ceilDiv_iff (gIn_pos v)).mp hg) ht) rfl rfl, Nat.div_add_mod' j (gOut v)]
  rfl

/-- A window that begins byte i. -/
theorem streamChar_byteStart {v : Variant} {w : Nat} (hw : width v = w) (n : Nat) (b : Nat → Byte) {j i : Nat}
    (hbit : j * w = 8 * i) (h : w ≤ 8) :
    streamChar v n b j = if i < n then symbolOf v (inputNat n b i / 2 ^ (8 - w)) else padChar := by
  rw [streamChar, hw, hbit, streamValue_byteStart n b i h]
  exact if_congr (by omega) rfl rfl

/-- A window inside byte i, from its bit o on. -/
theorem streamChar_inByte {v : Variant} {w : Nat} (hw : width v = w) (n : Nat) (b : Nat → Byte) {j i : Nat} (o : Nat)
    (hbit : j * w = 8 * i + o) (ho : o < 8) (h : o + w ≤ 8) : streamChar v n b j =
      if i < n then symbolOf v (inputNat n b i / 2 ^ (8 - (o + w)) % 2 ^ w) else padChar := by
  rw [streamChar, hw, hbit, streamValue_inByte n b i h]
  exact if_congr (by omega) rfl rfl

/-- A window of the last u bits of byte i and the first w bits of the next. -/
theorem streamChar_twoBytes {v : Variant} (u w : Nat) (hwidth : width v = u + w) (n : Nat) (b : Nat → Byte) {j i : Nat}
    (hbit : j * (u + w) = 8 * i + (8 - u)) (hu : 0 < u) (hu8 : u ≤ 8) (hw : w ≤ 8) : streamChar v n b j =
      if i < n then symbolOf v (inputNat n b i % 2 ^ u * 2 ^ w + inputNat n b (i + 1) / 2 ^ (8 - w)) else padChar := by
  rw [streamChar, hwidth, hbit, streamValue_twoBytes n b i hu8 hw]
  exact if_congr (by omega) rfl rfl

/-- The Base64 text (R127, R128): the windows of a group begin at its bits 0, 6, 12 and 18. -/
theorem streamChar_base64 {v : Variant} (hw : width v = 6) {n : Nat} (b : Nat → Byte) {j : Nat} (hj : 3 * (j / 4) < n) :
    streamChar v n b j = base64Char v n b j := by
  obtain ⟨q, r, hr, rfl⟩ : ∃ q r, r < 4 ∧ j = 4 * q + r := ⟨j / 4, j % 4, by omega, by omega⟩
  have hdiv : (4 * q + r) / 4 = q := by omega
  have hmod : (4 * q + r) % 4 = r := by omega
  rw [hdiv] at hj
  simp only [base64Char, hdiv, hmod]
  interval_cases r
  · exact (streamChar_byteStart hw n b (i := 3 * q) (by omega) (by omega)).trans (if_pos hj)
  · exact (streamChar_twoBytes 2 4 hw n b (i := 3 * q) (by omega) (by omega) (by omega) (by omega)).trans (if_pos hj)
  · exact streamChar_twoBytes 4 2 hw n b (i := 3 * q + 1) (by omega) (by omega) (by omega) (by omega)
  · exact (streamChar_inByte hw n b (i := 3 * q + 2) 2 (by omega) (by omega) (by omega)).trans (by simp [padChar])

/-- The Base32 text (R129, R130): the windows of a group begin at its bits 0, 5, …, 35. -/
theorem streamChar_base32 {v : Variant} (hw : width v = 5) {n : Nat} (b : Nat → Byte) {j : Nat} (hj : 5 * (j / 8) < n) :
    streamChar v n b j = base32Char v n b j := by
  obtain ⟨q, r, hr, rfl⟩ : ∃ q r, r < 8 ∧ j = 8 * q + r := ⟨j / 8, j % 8, by omega, by omega⟩
  have hdiv : (8 * q + r) / 8 = q := by omega
  have hmod : (8 * q + r) % 8 = r := by omega
  rw [hdiv] at hj
  simp only [base32Char, hdiv, hmod]
  interval_cases r
  · exact (streamChar_byteStart hw n b (i := 5 * q) (by omega) (by omega)).trans (if_pos hj)
  · exact (streamChar_twoBytes 3 2 hw n b (i := 5 * q) (by omega) (by omega) (by omega) (by omega)).trans (if_pos hj)
  · exact streamChar_inByte hw n b (i := 5 * q + 1) 2 (by omega) (by omega) (by omega)
  · exact streamChar_twoBytes 1 4 hw n b (i := 5 * q + 1) (by omega) (by omega) (by omega) (by omega)
  · exact streamChar_twoBytes 4 1 hw n b (i := 5 * q + 2) (by omega) (by omega) (by omega) (by omega)
  · exact streamChar_inByte hw n b (i := 5 * q + 3) 1 (by omega) (by omega) (by omega)
  · exact streamChar_twoBytes 2 3 hw n b (i := 5 * q + 3) (by omega) (by omega) (by omega) (by omega)
  · exact (streamChar_inByte hw n b (i := 5 * q + 4) 3 (by omega) (by omega) (by omega)).trans (by simp [padChar])

/-- The Base16 text (R131): the two windows of a byte are its nibbles. -/
theorem streamChar_base16 {n : Nat} (b : Nat → Byte) {j : Nat} (hj : j / 2 < n) :
    streamChar .b16 n b j = base16Char b j := by
  have hw : width .b16 = 4 := rfl
  rw [base16Char, ← inputNat_of_lt b hj]
  split_ifs with heven
  · exact (streamChar_byteStart hw n b (i := j / 2) (by omega) (by omega)).trans (if_pos hj)
  · exact (streamChar_inByte hw n b (i := j / 2) 4 (by omega) (by omega) (by omega)).trans (by simp [hj])

/-! ### The length of the text (R124) -/

theorem encodeCore_length_base64 {v : Variant} (hv : v = .b64 ∨ v = .b64url) (n : Nat) (b : Nat → Byte) :
    (encodeCore v n b).length = 4 * ((n + 2) / 3) := by
  rw [encodeCore_length]
  rcases hv with rfl | rfl <;> exact Nat.mul_comm ..

theorem encodeCore_length_base32 {v : Variant} (hv : v = .b32 ∨ v = .b32hex) (n : Nat) (b : Nat → Byte) :
    (encodeCore v n b).length = 8 * ((n + 4) / 5) := by
  rw [encodeCore_length]
  rcases hv with rfl | rfl <;> exact Nat.mul_comm ..

theorem encodeCore_length_base16 (n : Nat) (b : Nat → Byte) : (encodeCore .b16 n b).length = 2 * n := by
  rw [encodeCore_length, ceilDiv, gIn, Nat.div_one]
  exact Nat.mul_comm ..

theorem encodeCore_empty (v : Variant) (b : Nat → Byte) : encodeCore v 0 b = [] :=
  List.length_eq_zero_iff.mp (by rw [encodeCore_length, ceilDiv_zero (gIn_pos v), Nat.zero_mul])

/-- Settles O14: `encodeCore_length`, and its closed form for each width. -/
theorem encodedLengthLaw : Obligations.EncodedLengthLaw := fun n b =>
  ⟨fun v => ⟨encodeCore_length v n b, encodeCore_length v n b ▸ Nat.dvd_mul_left .., encodeCore_empty v b⟩,
    encodeCore_length_base64 (.inl rfl) n b, encodeCore_length_base64 (.inr rfl) n b,
    encodeCore_length_base32 (.inl rfl) n b, encodeCore_length_base32 (.inr rfl) n b, encodeCore_length_base16 n b⟩

/-! ### The encode commands (R126 to R131) -/

/-- A success is known by its bytes below OUT_LEN. -/
theorem State.SucceededWith.congr {s t : State} {n : Nat} {out out' : Nat → Byte} (h : s.SucceededWith t n out)
    (hout : ∀ j < n, out j = out' j) : s.SucceededWith t n out' :=
  { h with output := fun j hj => hout j hj ▸ h.output j hj }

/-- Every encode command completes with the windows of its input's bit stream (R120 to R122, R176). -/
theorem exec_enc_succeeds {i : Instr} (hi : i.op = .enc) {s : State} (fits : s.LatchFits) :
    ∃ t, exec i s = .next t ∧ s.SucceededWith t (encodeCore i.variant s.lc.len.toNat s.ibufByte).length
      (streamChar i.variant s.lc.len.toNat s.ibufByte) := by
  have run : s.run i = s.complete (encodeCore i.variant s.lc.len.toNat s.ibufByte) := by rw [State.run, hi]; rfl
  have bound := (fits.output_le (.inl ⟨hi, rfl⟩)).trans_lt (by norm_num : 8192 < 2 ^ 32)
  exact ⟨s.run i, exec_eq i s, run ▸ (s.complete_succeededWith _ bound).congr fun j => charAt_encodeCore _ _ _⟩

/-- Settles O13: `exec_enc_succeeds`, with the length of R124. -/
theorem encodersCutTheBitStreamIntoWindows : Obligations.EncodersCutTheBitStreamIntoWindows := by
  intro v s fits
  obtain ⟨t, hexec, ok⟩ := exec_enc_succeeds (Instr.op_ofFields .enc v) fits
  rw [Instr.variant_ofFields] at ok
  exact ⟨t, hexec, ok.outLen.trans (encodeCore_length ..), fun j hj => ok.output j (ok.outLen ▸ hj)⟩

/-- Settles O10: the windows by `streamChar_base64`. -/
theorem encB64CompletesWithTheBase64Text : Obligations.EncB64CompletesWithTheBase64Text := by
  intro i s hi fits
  obtain ⟨hop, hw, hv⟩ : i.op = .enc ∧ width i.variant = 6 ∧ (i.variant = .b64 ∨ i.variant = .b64url) := by
    rcases hi with rfl | rfl <;> decide
  obtain ⟨t, hexec, ok⟩ := exec_enc_succeeds hop fits
  rw [encodeCore_length_base64 hv] at ok
  exact ⟨t, hexec, ok.congr fun j hj => streamChar_base64 hw _ (by omega)⟩

/-- Settles O11: the windows by `streamChar_base32`. -/
theorem encB32CompletesWithTheBase32Text : Obligations.EncB32CompletesWithTheBase32Text := by
  intro i s hi fits
  obtain ⟨hop, hw, hv⟩ : i.op = .enc ∧ width i.variant = 5 ∧ (i.variant = .b32 ∨ i.variant = .b32hex) := by
    rcases hi with rfl | rfl <;> decide
  obtain ⟨t, hexec, ok⟩ := exec_enc_succeeds hop fits
  rw [encodeCore_length_base32 hv] at ok
  exact ⟨t, hexec, ok.congr fun j hj => streamChar_base32 hw _ (by omega)⟩

/-- Settles O12: the windows by `streamChar_base16`. -/
theorem encB16CompletesWithTheBase16Text : Obligations.EncB16CompletesWithTheBase16Text := by
  intro s fits
  obtain ⟨t, hexec, ok⟩ := exec_enc_succeeds (i := .encB16) rfl fits
  rw [Instr.variant, encodeCore_length_base16] at ok
  exact ⟨t, hexec, ok.congr fun j hj => streamChar_base16 _ (by omega)⟩

/-! ### The way back (R132, 42_decode.md R157) -/

/-- The significant symbols of a group of k bytes: never none, never with more padding than R145 accepts, in the domain
of R143, which counts the k bytes back from them. -/
theorem groupSymbols_accepted (v : Variant) {k : Nat} (hk : 0 < k) (hle : k ≤ gIn v) :
    0 < groupSymbols v k ∧ gOut v - groupSymbols v k ≤ padMax v ∧
      (groupSymbols v k = gOut v ∨ tailBytes v (groupSymbols v k) ≠ none) ∧ groupBytes v (groupSymbols v k) = k := by
  revert hk; revert k
  cases v <;> decide

/-- What is left of a group without its padding. -/
@[simp] theorem gOut_sub_padding (v : Variant) (k : Nat) : gOut v - (gOut v - groupSymbols v k) = groupSymbols v k :=
  Nat.sub_sub_self (groupSymbols_le v k)

theorem valueOf_streamChar {v : Variant} {n : Nat} (b : Nat → Byte) {j : Nat} (h : j * width v < 8 * n) :
    valueOf v (streamChar v n b j) = some (streamValue n b (j * width v) (width v)) := by
  rw [streamChar, if_pos h, valueOf_symbolOf v _ (streamValue_lt ..)]

theorem streamChar_eq_pad_iff (v : Variant) (n : Nat) (b : Nat → Byte) (j : Nat) :
    streamChar v n b j = padChar ↔ 8 * n ≤ j * width v := by
  unfold streamChar
  split_ifs with h
  · exact iff_of_false (symbolOf_ne_pad v _ (streamValue_lt ..)) (by omega)
  · exact iff_of_true rfl (by omega)

/-- The value of a Symbol Group of the text is the stream's stretch again: a padding position holds no input bit. -/
theorem symbolsValue_streamChar (v : Variant) (n : Nat) (b : Nat → Byte) (g s : Nat)
    (hs : ∀ t < gOut v, t < s ↔ (g * gOut v + t) * width v < 8 * n) :
    symbolsValue v s (fun t => streamChar v n b (g * gOut v + t)) = streamValue n b (8 * (g * gIn v)) (8 * gIn v) := by
  rw [bits_per_group, Nat.mul_comm (width v), ← concatBits_streamValue, symbolsValue]
  refine congrArg _ (List.map_congr_left fun t ht => ?_)
  have ht := hs t (List.mem_range.mp ht)
  rw [← firstBit_eq]
  split_ifs with hsig
  · rw [valueOf_streamChar b (ht.mp hsig), Option.getD_some]
  · exact (streamValue_of_le n b (by omega) _).symm

/-- A Symbol Group with the text's significant symbols gives the input's bytes from the group's first on (R148). -/
theorem decodeGroup_streamChar (v : Variant) (n : Nat) (b : Nat → Byte) (g s : Nat)
    (hs : ∀ t < gOut v, t < s ↔ (g * gOut v + t) * width v < 8 * n) {j : Nat} (hj : j < groupBytes v s)
    (hin : g * gIn v + j < n) :
    (decodeGroup v s fun t => streamChar v n b (g * gOut v + t))[j]? = some (b (g * gIn v + j)) := by
  have window : (j + 1) * 8 ≤ 8 * gIn v := by have := groupBytes_le v s; omega
  rw [decodeGroup_getElem? v s _ j hj, symbolsValue_streamChar v n b g s hs, bitWindow_streamValue n b _ window,
    Nat.mul_comm j 8, ← Nat.mul_add, streamValue_byte, inputNat_of_lt b hin, BitVec.ofNat_toNat, BitVec.setWidth_eq]

/-! The text of q full groups and a last one of r bytes. -/
section LastGroup

variable (v : Variant) (q : Nat) {r : Nat} (hr : 0 < r) (hle : r ≤ gIn v) (b : Nat → Byte)

include hr hle

/-- The padding is what the last group leaves of its G_out characters. -/
theorem endsInPadding_streamChar :
    EndsInPadding (streamChar v (q * gIn v + r) b) ((q + 1) * gOut v) (gOut v - groupSymbols v r) := by
  have := groupSymbols_le v r
  obtain ⟨hpos, -⟩ := groupSymbols_accepted v hr hle
  have hlen : (q + 1) * gOut v = q * gOut v + gOut v := Nat.succ_mul ..
  refine ⟨by omega, fun i hi hpad => ?_, fun _ => ?_⟩
  · have := significant_iff v q hr hle hi
    exact (streamChar_eq_pad_iff ..).mpr (by omega)
  · have := significant_iff v q (j := (q + 1) * gOut v - (gOut v - groupSymbols v r) - 1) hr hle (by omega)
    exact fun hpad => absurd ((streamChar_eq_pad_iff ..).mp hpad) (by omega)

/-- Every character before the padding has a value. -/
theorem firstInvalid_streamChar :
    firstInvalid v (streamChar v (q * gIn v + r) b) ((q + 1) * gOut v - (gOut v - groupSymbols v r)) = none := by
  have := groupSymbols_le v r
  rw [firstInvalid_none, Nat.succ_mul, Nat.add_sub_assoc (Nat.sub_le ..), gOut_sub_padding]
  intro i hi
  rw [valueOf_streamChar b ((significant_iff v q hr hle (by rw [Nat.succ_mul]; omega)).mp hi), Option.isSome_some]

/-- The symbols that the unpacker takes for group g are those whose windows meet the input's bits. -/
theorem lt_unpackedSymbols_iff {g t : Nat} (hg : g ≤ q) (ht : t < gOut v) :
    t < (if g = q then groupSymbols v r else gOut v) ↔ (g * gOut v + t) * width v < 8 * (q * gIn v + r) := by
  have hgroups : (g + 1) * gOut v ≤ (q + 1) * gOut v := Nat.mul_le_mul_right _ (by omega)
  rw [Nat.succ_mul] at hgroups
  rw [← significant_iff v q hr hle (by omega)]
  split_ifs with hlast
  · rw [hlast, Nat.add_lt_add_iff_left]
  · have hbefore : (g + 1) * gOut v ≤ q * gOut v := Nat.mul_le_mul_right _ (by omega)
    rw [Nat.succ_mul] at hbefore
    omega

/-- The unpacker cuts the text's stream into the input's bytes. -/
theorem unpack_streamChar :
    unpack v ((q + 1) * gOut v) (gOut v - groupSymbols v r) (streamChar v (q * gIn v + r) b)
      = (List.range (q * gIn v + r)).map b := by
  have hgroups : (q + 1) * gOut v / gOut v = q + 1 := Nat.mul_div_cancel _ (gOut_pos v)
  obtain ⟨-, -, -, hbytes⟩ := groupSymbols_accepted v hr hle
  have hlen : (unpack v ((q + 1) * gOut v) (gOut v - groupSymbols v r) (streamChar v (q * gIn v + r) b)).length
      = q * gIn v + r := by
    rw [unpack_length v _ _ _ (by omega), hgroups, gOut_sub_padding, hbytes, Nat.add_sub_cancel]
  refine List.ext_getElem? fun k => ?_
  rcases lt_or_ge k (q * gIn v + r) with hk | hk
  case inr => rw [List.getElem?_eq_none (by omega), List.getElem?_eq_none (by simpa using hk)]
  have hdiv := Nat.div_add_mod' k (gIn v)
  have hmod := Nat.mod_lt k (gIn_pos v)
  have hgroup : k / gIn v < q + 1 := (Nat.div_lt_iff_lt_mul (gIn_pos v)).mpr (by rw [Nat.succ_mul]; omega)
  have hbyte : k % gIn v < groupBytes v (if k / gIn v = q then groupSymbols v r else gOut v) := by
    split_ifs with hlast
    · rw [hbytes]
      rw [hlast] at hdiv
      omega
    · rwa [groupBytes_full]
  rw [unpack_getElem? v _ _ _ k (by omega), hgroups, gOut_sub_padding, Nat.add_sub_cancel,
    decodeGroup_streamChar v _ b _ _ (fun t => lt_unpackedSymbols_iff v q hr hle (by omega)) hbyte (by omega), hdiv]
  simp [hk]

end LastGroup

/-- Decoding the text gives the input back, whatever the input (R132, R157). -/
theorem decodeCore_streamChar (v : Variant) (n : Nat) (b : Nat → Byte) :
    decodeCore v (ceilDiv n (gIn v) * gOut v) (streamChar v n b) = .ok ((List.range n).map b) := by
  rcases Nat.eq_zero_or_pos n with rfl | hn
  · rw [ceilDiv_zero (gIn_pos v), Nat.zero_mul]
    rfl
  obtain ⟨q, r, hr, hle, rfl, hgroups⟩ := exists_lastGroup v hn
  obtain ⟨-, hpad, htail, -⟩ := groupSymbols_accepted v hr hle
  have haccepted : gOut v - groupSymbols v r = 0 ∨ tailBytes v (gOut v - (gOut v - groupSymbols v r)) ≠ none := by
    rw [gOut_sub_padding]
    exact htail.imp_left fun h => by rw [h, Nat.sub_self]
  rw [hgroups, decodeCore_of_checks v _ _ _ (Nat.mul_mod_left ..) (endsInPadding_streamChar v q hr hle b) hpad
    haccepted, firstInvalid_streamChar v q hr hle, unpack_streamChar v q hr hle]

/-- DecodeCore undoes EncodeCore. -/
theorem decodeCore_encodeCore (v : Variant) (n : Nat) (b : Nat → Byte) :
    decodeCore v (encodeCore v n b).length (charAt (encodeCore v n b)) = .ok ((List.range n).map b) := by
  rw [decodeCore_congr v _ _ (streamChar v n b) fun j => charAt_encodeCore v n b, encodeCore_length,
    decodeCore_streamChar]

/-- A decode command whose input buffer holds the text of n bytes completes with these bytes. -/
theorem exec_dec_succeeds_of_text (v : Variant) (n : Nat) (b : Nat → Byte) (t : State)
    (hlen : t.lc.len.toNat = (encodeCore v n b).length)
    (htext : ∀ j < t.lc.len.toNat, t.ibufByte j = charAt (encodeCore v n b) j) :
    ∃ t', exec (Instr.ofFields .dec v) t = .next t' ∧ t.SucceededWith t' n b := by
  have hd : decodeCore v t.lc.len.toNat t.ibufByte = .ok ((List.range n).map b) := by
    rw [decodeCore_congr v _ _ _ htext, hlen, decodeCore_encodeCore]
  have run : t.run (Instr.ofFields .dec v) = t.complete ((List.range n).map b) := by
    rw [State.run, Instr.op_ofFields, Instr.variant_ofFields]
    simp only [State.runDecode, hd]
  have bound : ((List.range n).map b).length < 2 ^ 32 := (length_le_of_decodeCore_ok hd).trans_lt t.lc.len.isLt
  have ok := t.complete_succeededWith _ bound
  rw [List.length_map, List.length_range] at ok
  exact ⟨_, exec_eq _ t, run ▸ ok.congr fun j hj => by simp [charAt, hj]⟩

/-- R132's injectivity: both inputs are what the one text decodes to. -/
theorem encodeCore_injective {v : Variant} {n n' : Nat} {b b' : Nat → Byte}
    (h : encodeCore v n b = encodeCore v n' b') : n = n' ∧ ∀ k < n, b k = b' k := by
  have hinput : (List.range n).map b = (List.range n').map b' :=
    DecodeResult.ok.inj (decodeCore_encodeCore v n b ▸ h ▸ decodeCore_encodeCore v n' b')
  have hn : n = n' := by simpa using congrArg List.length hinput
  subst hn
  exact ⟨rfl, fun k hk => List.map_inj_left.mp hinput k (List.mem_range.mpr hk)⟩

/-- Settles O28: the round trip by `exec_dec_succeeds_of_text`; the Base16 text of the byte 0 is `00`, whose own text
is `3030`; injectivity by `encodeCore_injective`. -/
theorem encoderLaws : Obligations.EncoderLaws :=
  ⟨fun v n b t _ => exec_dec_succeeds_of_text v n b t, ⟨.b16, 1, fun _ => 0, by decide⟩,
    fun _ _ _ _ _ => encodeCore_injective⟩

/-- Settles O27: the encode command leaves the text in OBUF, and `exec_dec_succeeds_of_text` reads it back. -/
theorem roundTripThroughTheBuffers : Obligations.RoundTripThroughTheBuffers := by
  intro v s t fits _
  obtain ⟨s', hexec, ok⟩ := exec_enc_succeeds (Instr.op_ofFields .enc v) fits
  rw [Instr.variant_ofFields] at ok
  refine ⟨s', hexec, fun hlen hcopy => exec_dec_succeeds_of_text v _ _ t (by rw [hlen, ok.outLen]) fun j hj => ?_⟩
  rw [hlen] at hj
  have hlt : j < (encodeCore v s.lc.len.toNat s.ibufByte).length := ok.outLen ▸ hj
  rw [hcopy j hj, charAt_encodeCore v _ _ hlt, s'.obufByte_of_get? j _ (ok.output j hlt)]

end Sys2Proof.Machine
end

section
/-! PROOF. The decoder of 42_decode.md: which texts it rejects and where, how long a decoded text is, and that its bytes
are the 8-bit windows of the one number that the text's symbols spell, of which each decode command's bytes and the
discarded bits are cases. -/

namespace Sys2Proof.Machine

/-! ### The padding counts (R143 to R146) -/

/-- The counts that pass R145 and still have no inverse: 2 and 5 in Base32 (R146). -/
theorem tailBytes_eq_none_iff (v : Variant) {p : Nat} (hle : p ≤ padMax v) :
    0 < p ∧ tailBytes v (gOut v - p) = none ↔ gOut v = 8 ∧ (p = 2 ∨ p = 5) := by
  revert p
  cases v <;> decide

/-- A group of s symbols in the domain of R143: its padding passes R145, and its symbols hold its k bytes and less than
one symbol more. -/
theorem tailBytes_fits {v : Variant} {s k : Nat} (h : tailBytes v s = some k) :
    gOut v - s ≤ padMax v ∧ 8 * k ≤ s * width v ∧ s * width v < 8 * k + width v := by
  have domain : ∀ s < gOut v, ∀ k ∈ tailBytes v s,
      gOut v - s ≤ padMax v ∧ 8 * k ≤ s * width v ∧ s * width v < 8 * k + width v := by
    cases v <;> decide
  obtain ⟨-, -, -, hs⟩ := tailBytes_lt v s k h
  exact domain s hs k h

/-! ### What DecodeCore's answer makes of the block (43_command_lifecycle.md R175) -/

theorem exec_dec_of_err {i : Instr} (hi : i.op = .dec) {s : State} {e : CodecError}
    (h : decodeCore i.variant s.lc.len.toNat s.ibufByte = .err e) : exec i s = .next (s.raiseErr i.variant e) := by
  rw [exec_eq, State.run, hi]
  simp only [State.runDecode, h]

theorem exec_dec_of_ok {i : Instr} (hi : i.op = .dec) {s : State} {out : List Byte}
    (h : decodeCore i.variant s.lc.len.toNat s.ibufByte = .ok out) : exec i s = .next (s.complete out) := by
  rw [exec_eq, State.run, hi]
  simp only [State.runDecode, h]

/-! ### The errors (R142 to R147, 60_exceptions.md R203, R205) -/

/-- An error other than InvalidCharacter leaves every OBUF byte alone (R205). -/
theorem State.raiseErr_failedWith_zero (s : State) (v : Variant) {e : CodecError} (h : e.code = 1 ∨ e.code = 2) :
    s.FailedWith (s.raiseErr v e) e.code e.position 0 :=
  { s.raiseErr_failedWith v e with
    rest := fun j _ => s.obufByte_congr _ j (by rw [State.raiseErr_obuf, s.obufAfterError_of_code v e h]) rfl }

/-- Settles O19: `decodeCore_length_error`, with the group size of each command. -/
theorem decodeRejectsALengthThatIsNoMultiple : Obligations.DecodeRejectsALengthThatIsNoMultiple := by
  intro i g s hi hlen
  obtain ⟨hop, rfl⟩ : i.op = .dec ∧ g = gOut i.variant :=
    (List.forall_iff_forall_mem (p := fun r => r.1.op = .dec ∧ r.2 = gOut r.1.variant)).mp (by decide) _ hi
  exact ⟨_, exec_dec_of_err hop (decodeCore_length_error _ _ _ hlen), s.raiseErr_failedWith_zero _ (.inl rfl)⟩

/-- Settles O20: `decodeCore_padding_error`, with the counts of `tailBytes_eq_none_iff`. -/
theorem decodeRejectsABadPaddingCount : Obligations.DecodeRejectsABadPaddingCount := by
  intro i g m s p hi hlen hpad hbad
  obtain ⟨hop, rfl, rfl⟩ : i.op = .dec ∧ g = gOut i.variant ∧ m = padMax i.variant :=
    (List.forall_iff_forall_mem
      (p := fun r => r.1.op = .dec ∧ r.2.1 = gOut r.1.variant ∧ r.2.2 = padMax r.1.variant)).mp (by decide) _ hi
  have hrejected : padMax i.variant < p ∨ 0 < p ∧ tailBytes i.variant (gOut i.variant - p) = none := by
    rcases lt_or_ge (padMax i.variant) p with hlong | hle
    · exact .inl hlong
    · exact .inr ((tailBytes_eq_none_iff _ hle).mpr (hbad.resolve_left hle.not_gt))
  exact ⟨_, exec_dec_of_err hop (decodeCore_padding_error _ _ p _ hlen hpad hrejected),
    s.raiseErr_failedWith_zero _ (.inr rfl)⟩

/-- Settles O21: with the checks of length and padding passed, DecodeCore answers what `firstInvalid` finds. -/
theorem decodeReportsTheFirstInvalidCharacter : Obligations.DecodeReportsTheFirstInvalidCharacter := by
  intro i g m b s p k hi hlen hpad hle hdomain hk hnone hbefore
  obtain ⟨hop, rfl, rfl, rfl⟩ : i.op = .dec ∧ g = gOut i.variant ∧ m = padMax i.variant ∧ b = gIn i.variant :=
    (List.forall_iff_forall_mem (p := fun r => r.1.op = .dec ∧ r.2.1 = gOut r.1.variant ∧
      r.2.2.1 = padMax r.1.variant ∧ r.2.2.2 = gIn r.1.variant)).mp (by decide) _ hi
  have htail : p = 0 ∨ tailBytes i.variant (gOut i.variant - p) ≠ none := by
    rw [← tailBytes_eq_none_iff _ hle, not_and] at hdomain
    exact (Nat.eq_zero_or_pos p).imp_right hdomain
  have hfirst := (firstInvalid_some i.variant s.ibufByte _ k).mpr ⟨hk, hnone, hbefore⟩
  have herr : decodeCore i.variant s.lc.len.toNat s.ibufByte = .err (.invalidCharacter k) := by
    rw [decodeCore_of_checks _ _ p _ hlen hpad hle htail, hfirst]
  exact ⟨_, exec_dec_of_err hop herr, s.raiseErr_failedWith _ _⟩

/-! ### The length of the decoded text (R150) -/

/-- A text of a length in order that is not empty has a last group. -/
theorem div_gOut_pos {v : Variant} {l : Nat} (hl : l % gOut v = 0) (hpos : 0 < l) : 0 < l / gOut v :=
  Nat.div_pos (Nat.le_of_dvd hpos (Nat.dvd_of_mod_eq_zero hl)) (gOut_pos v)

/-- n groups of d elements are those before the last one and the last one. -/
theorem mul_eq_sub_one_mul_add {n : Nat} (d : Nat) (h : 0 < n) : n * d = (n - 1) * d + d := by
  rw [← Nat.succ_mul, Nat.succ_eq_add_one, Nat.sub_add_cancel h]

/-- Every group gives G_in bytes, but for those that the last one lacks. -/
theorem unpack_length_eq_sub (v : Variant) (l p : Nat) (c : Nat → Byte) :
    (unpack v l p c).length = l / gOut v * gIn v - (gIn v - groupBytes v (gOut v - p)) := by
  rcases Nat.eq_zero_or_pos (l / gOut v) with hzero | hpos
  · simp [unpack, hzero]
  · have hlast := mul_eq_sub_one_mul_add (gIn v) hpos
    have := groupBytes_le v (gOut v - p)
    rw [unpack_length v l p c hpos]
    omega

theorem groupBytes_of_tailBytes {v : Variant} {s k : Nat} (h : tailBytes v s = some k) : groupBytes v s = k := by
  obtain ⟨-, -, -, hs⟩ := tailBytes_lt v s k h
  rw [groupBytes, if_neg hs.ne, h, Option.getD_some]

/-- Settles O22: the success case of `decodeCore_cases`, and the length of what it unpacks. -/
theorem decodedLengthLaw : Obligations.DecodedLengthLaw := by
  intro v l c out hok
  have hle := length_le_of_decodeCore_ok hok
  refine ⟨hle, fun h0 => by omega, ?_⟩
  rcases decodeCore_cases v l c with ⟨-, he⟩ | ⟨hlen, p, hpad, ⟨-, he⟩ | ⟨-, htail, ⟨i, -, he⟩ | ⟨-, he⟩⟩⟩ <;>
    rw [he] at hok <;> cases hok
  refine ⟨p, hpad, fun hp => ?_, fun hp => ?_⟩
  · rw [unpack_length_eq_sub, hp, Nat.sub_zero, groupBytes_full, Nat.sub_self, Nat.sub_zero]
  · obtain ⟨k, hk⟩ := Option.ne_none_iff_exists'.mp (htail.resolve_left hp.ne')
    have hgroup := div_gOut_pos hlen (hp.trans_le hpad.1)
    exact ⟨k, hk, by rw [unpack_length v l p c hgroup, groupBytes_of_tailBytes hk]⟩

/-! ### The text as one number (00_scope.md R9, R148) -/

theorem charValue_lt (v : Variant) (m : Nat) (c : Nat → Byte) (i : Nat) : charValue v m c i < 2 ^ width v := by
  unfold charValue
  split_ifs
  · exact valueOf_lt v (c i)
  · exact Nat.two_pow_pos _

/-- The number that the n characters from a on spell, in a text of m significant characters. -/
def textValue (v : Variant) (m : Nat) (c : Nat → Byte) (a n : Nat) : Nat :=
  concatBits (width v) ((List.range n).map fun t => charValue v m c (a + t))

section TextValue

variable (v : Variant) (m : Nat) (c : Nat → Byte)

@[simp] theorem textValue_zero (a : Nat) : textValue v m c a 0 = 0 := rfl

theorem textValue_succ (a n : Nat) :
    textValue v m c a (n + 1) = textValue v m c a n * 2 ^ width v + charValue v m c (a + n) := by
  simp [textValue, concatBits, List.range_succ]

theorem textValue_lt (a n : Nat) : textValue v m c a n < 2 ^ (n * width v) := by
  induction n with
  | zero => simp
  | succ n ih =>
    calc textValue v m c a (n + 1)
        < (textValue v m c a n + 1) * 2 ^ width v := by
          have := charValue_lt v m c (a + n)
          rw [textValue_succ, Nat.succ_mul]
          omega
      _ ≤ 2 ^ (n * width v) * 2 ^ width v := Nat.mul_le_mul_right _ ih
      _ = 2 ^ ((n + 1) * width v) := by rw [← Nat.pow_add, Nat.succ_mul]

/-- The characters from a on, u of them and then n more. -/
theorem textValue_add (a u n : Nat) :
    textValue v m c a (u + n) = textValue v m c a u * 2 ^ (n * width v) + textValue v m c (a + u) n := by
  induction n with
  | zero => simp
  | succ n ih =>
    rw [← Nat.add_assoc, textValue_succ, ih, textValue_succ, Nat.add_assoc a u n, Nat.succ_mul, Nat.pow_add]
    ring

/-- A window of the text lies in the characters that cover it, n of them from a on, r bits before their end. -/
theorem bitWindow_textValue {l a n b j r : Nat} (hin : a + n ≤ l) (hstart : a * width v ≤ b * j)
    (hend : b * (j + 1) + r = (a + n) * width v) :
    bitWindow (l * width v) b j (textValue v m c 0 l) = textValue v m c a n / 2 ^ r % 2 ^ b := by
  obtain ⟨e, rfl⟩ := Nat.exists_eq_add_of_le hin
  have hbits : (a + n + e) * width v - (j + 1) * b = e * width v + r := by
    rw [Nat.add_mul, ← hend, Nat.mul_comm b]
    omega
  obtain ⟨d, hd⟩ : ∃ d, n * width v = r + b + d :=
    ⟨b * j - a * width v, by rw [Nat.mul_succ, Nat.add_mul] at hend; omega⟩
  calc bitWindow ((a + n + e) * width v) b j (textValue v m c 0 (a + n + e))
      = textValue v m c 0 (a + n) / 2 ^ r % 2 ^ b := by
        rw [bitWindow, hbits, textValue_add, Nat.pow_add, ← Nat.div_div_eq_div_mul, Nat.mul_comm,
          Nat.mul_add_div (Nat.two_pow_pos _), Nat.div_eq_of_lt (textValue_lt ..), Nat.add_zero]
    _ = (2 ^ r * (2 ^ b * (2 ^ d * textValue v m c 0 a)) + textValue v m c a n) / 2 ^ r % 2 ^ b := by
        rw [textValue_add, hd, Nat.pow_add, Nat.pow_add, Nat.zero_add, Nat.mul_comm (textValue v m c 0 a),
          Nat.mul_assoc, Nat.mul_assoc]
    _ = textValue v m c a n / 2 ^ r % 2 ^ b := by
        rw [Nat.mul_add_div (Nat.two_pow_pos r), Nat.mul_add_mod_self_left]

/-- A Symbol Group's value is what its G_out characters spell. -/
theorem symbolsValue_eq_textValue {a s : Nat} (hs : ∀ t < gOut v, t < s ↔ a + t < m) :
    symbolsValue v s (fun t => c (a + t)) = textValue v m c a (gOut v) :=
  congrArg _ (List.map_congr_left fun t ht => if_congr (hs t (List.mem_range.mp ht)) rfl rfl)

/-- Byte j of a text of l characters, m of them significant: window j of the text's number. -/
def textByte (l : Nat) (j : Nat) : Byte := BitVec.ofNat 8 (bitWindow (l * width v) 8 j (textValue v m c 0 l))

/-- A byte out of the n characters that cover it, r bits before their end. -/
theorem textByte_eq {l a n j r : Nat} (hin : a + n ≤ l) (hstart : a * width v ≤ 8 * j)
    (hend : 8 * (j + 1) + r = (a + n) * width v) :
    textByte v m c l j = BitVec.ofNat 8 (textValue v m c a n / 2 ^ r) := by
  rw [textByte, bitWindow_textValue v m c hin hstart hend]
  exact BitVec.eq_of_toNat_eq (by simp)

/-- A byte that two neighbouring characters cover. -/
theorem textByte_twoChars {w : Nat} (hw : width v = w) {l j a a' : Nat} (ha : a' = a + 1) (r : Nat) {y : Nat}
    (hin : a + 2 ≤ l) (hstart : a * w ≤ 8 * j) (hend : 8 * (j + 1) + r = (a + 2) * w)
    (hy : (charValue v m c a * 2 ^ w + charValue v m c a') / 2 ^ r % 256 = y % 256) :
    textByte v m c l j = BitVec.ofNat 8 y := by
  subst hw ha
  rw [textByte_eq v m c hin hstart hend]
  exact BitVec.eq_of_toNat_eq (by simpa [textValue_succ] using hy)

/-- A byte that three neighbouring characters cover. -/
theorem textByte_threeChars {w : Nat} (hw : width v = w) {l j a a' a'' : Nat} (ha : a' = a + 1) (ha' : a'' = a + 2)
    (r : Nat) {y : Nat} (hin : a + 3 ≤ l) (hstart : a * w ≤ 8 * j) (hend : 8 * (j + 1) + r = (a + 3) * w)
    (hy : ((charValue v m c a * 2 ^ w + charValue v m c a') * 2 ^ w + charValue v m c a'') / 2 ^ r % 256 = y % 256) :
    textByte v m c l j = BitVec.ofNat 8 y := by
  subst hw ha ha'
  rw [textByte_eq v m c hin hstart hend]
  exact BitVec.eq_of_toNat_eq (by simpa [textValue_succ] using hy)

end TextValue

/-! ### The unpacked bytes (R148) -/

/-- The symbols that the unpacker takes for group g are the characters before the padding. -/
theorem lt_significantSymbols_iff {G l p g t : Nat} (hl : l % G = 0) (hp : p ≤ G) (hg : g < l / G) (ht : t < G) :
    t < (if g = l / G - 1 then G - p else G) ↔ g * G + t < l - p := by
  have hlen := Nat.div_add_mod' l G
  split_ifs with hlast
  · have := mul_eq_sub_one_mul_add G (Nat.zero_lt_of_lt hg)
    rw [← hlast] at this
    omega
  · have : (g + 2) * G ≤ l / G * G := Nat.mul_le_mul_right _ (by omega)
    rw [Nat.add_mul] at this
    omega

/-- The unpacker cuts the text's number into bytes. -/
theorem charAt_unpack (v : Variant) {l p : Nat} (c : Nat → Byte) (hl : l % gOut v = 0) (hp : p ≤ gOut v) {j : Nat}
    (hj : j < (unpack v l p c).length) : charAt (unpack v l p c) j = textByte v (l - p) c l j := by
  have hg : j / gIn v < l / gOut v :=
    (Nat.div_lt_iff_lt_mul (gIn_pos v)).mpr (hj.trans_le (unpack_length_le v l p c))
  have hin : j / gIn v * gOut v + gOut v ≤ l := by
    rw [← Nat.succ_mul]
    exact (Nat.mul_le_mul_right _ hg).trans (Nat.div_mul_le_self ..)
  have hget := unpack_getElem? v l p c j hg
  obtain ⟨ht, -⟩ := List.getElem?_eq_some_iff.mp (hget.symm.trans (List.getElem?_eq_getElem hj))
  rw [charAt, List.getD, hget, decodeGroup_getElem? v _ _ _ (by simpa using ht), Option.getD_some,
    symbolsValue_eq_textValue v (l - p) c fun t ht => lt_significantSymbols_iff hl hp hg ht, textByte]
  have hdiv := Nat.div_add_mod' j (gIn v)
  have hmod := Nat.mod_lt j (gIn_pos v)
  have hfirst : j / gIn v * gOut v * width v = 8 * (j / gIn v * gIn v) := by simpa using firstBit_eq v (j / gIn v) 0
  have hlast : (j / gIn v * gOut v + gOut v) * width v = 8 * (j / gIn v * gIn v) + 8 * gIn v := by
    rw [firstBit_eq, bits_per_group, Nat.mul_comm (gOut v)]
  rw [bitWindow, bitWindow_textValue v (l - p) c (r := 8 * gIn v - (j % gIn v + 1) * 8) hin (by omega) (by omega)]

/-- The Base64 bytes (R152, R153). -/
theorem textByte_base64 {v : Variant} (hw : width v = 6) (m : Nat) (c : Nat → Byte) {l j : Nat}
    (hj : 4 * (j / 3) + 4 ≤ l) : textByte v m c l j = base64Byte v m c j := by
  obtain ⟨q, r, hr, rfl⟩ : ∃ q r, r < 3 ∧ j = 3 * q + r := ⟨j / 3, j % 3, by omega, by omega⟩
  have hdiv : (3 * q + r) / 3 = q := by omega
  have hmod : (3 * q + r) % 3 = r := by omega
  rw [hdiv] at hj
  simp only [base64Byte, hdiv, hmod]
  interval_cases r <;> simp only [reduceIte, Nat.reduceEqDiff]
  · exact textByte_twoChars v m c hw (rfl : 4 * q + 1 = 4 * q + 1) 4 (by omega) (by omega) (by omega) (by omega)
  · exact textByte_twoChars v m c hw (rfl : 4 * q + 2 = 4 * q + 1 + 1) 2 (by omega) (by omega) (by omega) (by omega)
  · exact textByte_twoChars v m c hw (rfl : 4 * q + 3 = 4 * q + 2 + 1) 0 (by omega) (by omega) (by omega) (by omega)

/-- The Base32 bytes (R154, R155). -/
theorem textByte_base32 {v : Variant} (hw : width v = 5) (m : Nat) (c : Nat → Byte) {l j : Nat}
    (hj : 8 * (j / 5) + 8 ≤ l) : textByte v m c l j = base32Byte v m c j := by
  obtain ⟨q, r, hr, rfl⟩ : ∃ q r, r < 5 ∧ j = 5 * q + r := ⟨j / 5, j % 5, by omega, by omega⟩
  have hdiv : (5 * q + r) / 5 = q := by omega
  have hmod : (5 * q + r) % 5 = r := by omega
  rw [hdiv] at hj
  simp only [base32Byte, hdiv, hmod]
  interval_cases r <;> simp only [reduceIte, Nat.reduceEqDiff]
  · exact textByte_twoChars v m c hw (rfl : 8 * q + 1 = 8 * q + 1) 2 (by omega) (by omega) (by omega) (by omega)
  · exact textByte_threeChars v m c hw (rfl : 8 * q + 2 = 8 * q + 1 + 1) (rfl : 8 * q + 3 = _) 4 (by omega) (by omega)
      (by omega) (by omega)
  · exact textByte_twoChars v m c hw (rfl : 8 * q + 4 = 8 * q + 3 + 1) 1 (by omega) (by omega) (by omega) (by omega)
  · exact textByte_threeChars v m c hw (rfl : 8 * q + 5 = 8 * q + 4 + 1) (rfl : 8 * q + 6 = _) 3 (by omega) (by omega)
      (by omega) (by omega)
  · exact textByte_twoChars v m c hw (rfl : 8 * q + 7 = 8 * q + 6 + 1) 0 (by omega) (by omega) (by omega) (by omega)

/-- The Base16 bytes (R156): both characters of a pair are significant. -/
theorem textByte_base16 (c : Nat → Byte) {l j : Nat} (hj : 2 * j + 2 ≤ l) : textByte .b16 l c l j = base16Byte c j := by
  have hvalue : ∀ i < l, (valueOf .b16 (c i)).getD 0 = charValue .b16 l c i := fun i hi => (if_pos hi).symm
  rw [base16Byte, hvalue _ (by omega), hvalue _ (by omega)]
  exact textByte_twoChars .b16 l c (w := 4) rfl (rfl : 2 * j + 1 = _) 0 (by omega) (by omega) (by omega) (by omega)

/-! ### The decode commands (R152 to R156, 43_command_lifecycle.md R176) -/

/-- A decode command whose text passes every check completes with the text's bytes. -/
theorem exec_dec_succeeds {i : Instr} (hi : i.op = .dec) {s : State} {p : Nat}
    (hlen : s.lc.len.toNat % gOut i.variant = 0) (hpad : EndsInPadding s.ibufByte s.lc.len.toNat p)
    (hle : p ≤ padMax i.variant) (htail : p = 0 ∨ tailBytes i.variant (gOut i.variant - p) ≠ none)
    (hvalid : ∀ k < s.lc.len.toNat - p, (valueOf i.variant (s.ibufByte k)).isSome) :
    ∃ t, exec i s = .next t ∧ s.SucceededWith t
      (s.lc.len.toNat / gOut i.variant * gIn i.variant - (gIn i.variant - groupBytes i.variant (gOut i.variant - p)))
      (textByte i.variant (s.lc.len.toNat - p) s.ibufByte s.lc.len.toNat) := by
  have hd : decodeCore i.variant s.lc.len.toNat s.ibufByte = .ok (unpack i.variant s.lc.len.toNat p s.ibufByte) := by
    rw [decodeCore_of_checks _ _ p _ hlen hpad hle htail, (firstInvalid_none _ _ _).mpr hvalid]
  have bound := (length_le_of_decodeCore_ok hd).trans_lt s.lc.len.isLt
  rw [← unpack_length_eq_sub i.variant _ p s.ibufByte]
  exact ⟨_, exec_dec_of_ok hi hd, (s.complete_succeededWith _ bound).congr fun j =>
    charAt_unpack i.variant _ hlen (hle.trans (padMax_lt_gOut _).le)⟩

/-- Settles O16: the bytes by `textByte_base64`; p padding characters stand for p bytes. -/
theorem decB64CompletesWithTheDecodedBytes : Obligations.DecB64CompletesWithTheDecodedBytes := by
  intro i s p hi _ hlen hp hpad hvalid
  obtain ⟨hop, hw, hin, hout, hmax⟩ :
      i.op = .dec ∧ width i.variant = 6 ∧ gIn i.variant = 3 ∧ gOut i.variant = 4 ∧ padMax i.variant = 2 := by
    rcases hi with rfl | rfl <;> decide
  obtain ⟨htail, hbytes⟩ : (p = 0 ∨ tailBytes i.variant (4 - p) ≠ none) ∧ 3 - groupBytes i.variant (4 - p) = p := by
    rcases hi with rfl | rfl <;> interval_cases p <;> decide
  obtain ⟨t, hexec, ok⟩ := exec_dec_succeeds hop (hout ▸ hlen) hpad (hmax ▸ hp) (hout ▸ htail) hvalid
  rw [hin, hout, hbytes, Nat.mul_comm] at ok
  exact ⟨t, hexec, ok.congr fun j hj => textByte_base64 hw _ _ (by omega)⟩

/-- Settles O17: the bytes by `textByte_base32`; p padding characters stand for q bytes. -/
theorem decB32CompletesWithTheDecodedBytes : Obligations.DecB32CompletesWithTheDecodedBytes := by
  intro i s p q hi _ hlen hpq hpad hvalid
  obtain ⟨hop, hw, hin, hout⟩ :
      i.op = .dec ∧ width i.variant = 5 ∧ gIn i.variant = 5 ∧ gOut i.variant = 8 := by
    rcases hi with rfl | rfl <;> decide
  obtain ⟨hle, htail, hbytes⟩ : p ≤ padMax i.variant ∧ (p = 0 ∨ tailBytes i.variant (8 - p) ≠ none) ∧
      5 - groupBytes i.variant (8 - p) = q := by
    refine (List.forall_iff_forall_mem (p := fun r : Nat × Nat => r.1 ≤ padMax i.variant ∧
      (r.1 = 0 ∨ tailBytes i.variant (8 - r.1) ≠ none) ∧ 5 - groupBytes i.variant (8 - r.1) = r.2)).mp ?_ _ hpq
    rcases hi with rfl | rfl <;> decide
  obtain ⟨t, hexec, ok⟩ := exec_dec_succeeds hop (hout ▸ hlen) hpad hle (hout ▸ htail) hvalid
  rw [hin, hout, hbytes, Nat.mul_comm] at ok
  exact ⟨t, hexec, ok.congr fun j hj => textByte_base32 hw _ _ (by omega)⟩

/-- Settles O18: the bytes by `textByte_base16`; a text of alphabet characters ends in no padding (R109). -/
theorem decB16CompletesWithTheDecodedBytes : Obligations.DecB16CompletesWithTheDecodedBytes := by
  intro s _ hlen hvalid
  have hpad : EndsInPadding s.ibufByte s.lc.len.toNat 0 := by
    refine ⟨Nat.zero_le _, fun i _ _ => by omega, fun hpos heq => ?_⟩
    have := hvalid (s.lc.len.toNat - 0 - 1) (by omega)
    rw [heq] at this
    exact absurd this (by decide)
  obtain ⟨t, hexec, ok⟩ := exec_dec_succeeds (i := .decB16) rfl hlen hpad (Nat.zero_le _) (.inl rfl) hvalid
  rw [Nat.sub_zero, groupBytes_full, Nat.sub_self, Nat.sub_zero] at ok
  have hlength : s.lc.len.toNat / gOut Instr.decB16.variant * gIn Instr.decB16.variant = s.lc.len.toNat / 2 :=
    Nat.mul_one _
  exact ⟨t, hexec, (hlength ▸ ok).congr fun j hj => textByte_base16 _ (by omega)⟩

/-! ### The discarded bits (R149) -/

/-- A byte that ends d bits or more before the end of the significant characters depends on what their number holds
above its d lowest bits. -/
theorem textByte_eq_of_div_eq {v : Variant} {l m d j : Nat} {c c' : Nat → Byte} (hm : m ≤ l)
    (hj : 8 * (j + 1) + d ≤ m * width v) (h : textValue v m c 0 m / 2 ^ d = textValue v m c' 0 m / 2 ^ d) :
    textByte v m c l j = textByte v m c' l j := by
  obtain ⟨r, hr⟩ := Nat.exists_eq_add_of_le hj
  have hbyte : ∀ c, textByte v m c l j = BitVec.ofNat 8 (textValue v m c 0 m / 2 ^ d / 2 ^ r) := fun c => by
    rw [Nat.div_div_eq_div_mul, ← Nat.pow_add,
      textByte_eq v m c (a := 0) (n := m) (r := d + r) (by omega) (by omega) (by rw [Nat.zero_add]; omega)]
  rw [hbyte, hbyte, h]

/-- Texts that differ in the discarded bits of their last significant character agree in the number above them. -/
theorem textValue_div_eq_of_last {v : Variant} {n d x y : Nat} {c c' : Nat → Byte} (hd : d ≤ width v)
    (hsame : ∀ i < n, c i = c' i) (hx : valueOf v (c n) = some x) (hy : valueOf v (c' n) = some y)
    (h : x / 2 ^ d = y / 2 ^ d) :
    textValue v (n + 1) c 0 (n + 1) / 2 ^ d = textValue v (n + 1) c' 0 (n + 1) / 2 ^ d := by
  have hbefore : textValue v (n + 1) c 0 n = textValue v (n + 1) c' 0 n := by
    refine congrArg _ (List.map_congr_left fun t ht => ?_)
    rw [charValue, charValue, hsame _ (by simpa using ht)]
  obtain ⟨e, he⟩ := Nat.exists_eq_add_of_le hd
  have hsplit : ∀ (a z : Nat), (a * 2 ^ width v + z) / 2 ^ d = 2 ^ e * a + z / 2 ^ d := fun a z => by
    rw [he, Nat.pow_add, Nat.mul_comm a, Nat.mul_assoc, Nat.mul_add_div (Nat.two_pow_pos d)]
  rw [textValue_succ, textValue_succ, hbefore, hsplit, hsplit]
  simp [charValue, hx, hy, h]

/-- With p padding characters the bytes end where the discarded bits of the significant characters begin. -/
theorem unpack_length_bits {v : Variant} {l p k : Nat} (c : Nat → Byte) (hl : l % gOut v = 0) (hpos : 0 < l)
    (htail : tailBytes v (gOut v - p) = some k) :
    8 * (unpack v l p c).length + ((gOut v - p) * width v - 8 * k) = (l - p) * width v := by
  obtain ⟨-, -, hks, -⟩ := tailBytes_lt v _ k htail
  obtain ⟨-, hbits, -⟩ := tailBytes_fits htail
  have hgroup := div_gOut_pos hl hpos
  have hlast := mul_eq_sub_one_mul_add (gOut v) hgroup
  rw [Nat.div_mul_cancel (Nat.dvd_of_mod_eq_zero hl)] at hlast
  have hend := firstBit_eq v (l / gOut v - 1) (gOut v - p)
  rw [← Nat.add_sub_assoc (by omega), ← hlast] at hend
  rw [hend, unpack_length v l p c hgroup, groupBytes_of_tailBytes htail]
  omega

theorem eq_of_charAt_eq {xs ys : List Byte} (hlen : xs.length = ys.length)
    (h : ∀ j < xs.length, charAt xs j = charAt ys j) : xs = ys :=
  List.ext_getElem hlen fun j hx hy => by simpa [charAt, hx, hy] using h j hx

/-- A text with another last significant character that is no padding ends in the same run. -/
theorem EndsInPadding.of_last {c d : Nat → Byte} {l p : Nat} (h : EndsInPadding c l p) (hlt : p < l)
    (hsame : ∀ i < l, i ≠ l - p - 1 → c i = d i) (hlast : d (l - p - 1) ≠ padChar) : EndsInPadding d l p := by
  obtain ⟨hle, hrun, -⟩ := h
  exact ⟨hle, fun i hi hge => hsame i hi (by omega) ▸ hrun i hi hge, fun _ => hlast⟩

/-- The unpacked bytes end before the discarded bits. -/
theorem unpack_eq_of_discardedBits {v : Variant} {l p k x y : Nat} {c d : Nat → Byte} (hl : l % gOut v = 0)
    (hlt : p < l) (htail : tailBytes v (gOut v - p) = some k) (hsame : ∀ i < l, i ≠ l - p - 1 → c i = d i)
    (hx : valueOf v (c (l - p - 1)) = some x) (hy : valueOf v (d (l - p - 1)) = some y)
    (hhigh : x / 2 ^ ((gOut v - p) * width v - 8 * k) = y / 2 ^ ((gOut v - p) * width v - 8 * k)) :
    unpack v l p c = unpack v l p d := by
  obtain ⟨-, -, hks, -⟩ := tailBytes_lt v _ k htail
  obtain ⟨-, -, hless⟩ := tailBytes_fits htail
  have hend := unpack_length_bits c hl (by omega) htail
  have hlength : (unpack v l p c).length = (unpack v l p d).length := by simp only [unpack_length_eq_sub]
  have hvalue := textValue_div_eq_of_last (n := l - p - 1) (by omega) (fun i hi => hsame i (by omega) hi.ne) hx hy hhigh
  rw [Nat.sub_add_cancel (by omega)] at hvalue
  refine eq_of_charAt_eq hlength fun j hj => ?_
  rw [charAt_unpack v c hl (by omega) hj, charAt_unpack v d hl (by omega) (hlength ▸ hj)]
  exact textByte_eq_of_div_eq (by omega) (by omega) hvalue

/-- Settles O23: both texts pass the same checks, and no byte reaches down to the bits in which they differ. -/
theorem discardedBitsAreIgnored : Obligations.DiscardedBitsAreIgnored := by
  intro v l p k x y c d hpad hp htail hlen hsame hx hy hhigh
  obtain ⟨-, -, hks, -⟩ := tailBytes_lt v _ k htail
  obtain ⟨hmax, -, -⟩ := tailBytes_fits htail
  have hlt : p < l := by
    refine hpad.1.lt_of_ne fun heq => ?_
    rw [← heq, Nat.mod_eq_of_lt (by omega)] at hlen
    omega
  have hpad' : EndsInPadding d l p := by
    refine hpad.of_last hlt hsame fun heq => ?_
    rw [heq, valueOf_pad] at hy
    cases hy
  have hfirst : firstInvalid v c (l - p) = firstInvalid v d (l - p) := by
    refine firstInvalid_congr v c d _ fun i hi => ?_
    by_cases hlast : i = l - p - 1
    · rw [hlast, hx, hy]
      rfl
    · rw [hsame i (by omega) hlast]
  have hdomain : p = 0 ∨ tailBytes v (gOut v - p) ≠ none := .inr (htail ▸ Option.some_ne_none k)
  rw [decodeCore_of_checks v l p c hlen hpad (by omega) hdomain,
    decodeCore_of_checks v l p d hlen hpad' (by omega) hdomain, hfirst,
    unpack_eq_of_discardedBits hlen hlt htail hsame hx hy hhigh]

end Sys2Proof.Machine
end

section
/-! PROOF. The life of a command (43_command_lifecycle.md): what a CMD write does to a busy and to an idle block, what
the host reads while a command runs, and how the Engine's step completes the command in LC. -/

namespace Sys2Proof.Machine

/-! ### The CMD write (R170 to R174) -/

/-- A write to CMD is the CMD write of the word, without a bus error (20_memory.md R58). -/
theorem State.memWrite_cmd (s : State) (w : Word) : s.memWrite 0x008 4 w = (s.cmdWrite w, false) :=
  s.memWrite_register 0x008 w (by decide) (by decide)

/-- The host is told that it got no bus error. -/
theorem State.transact_cmd (s : State) (w : Word) :
    s.transact (.write 0x008 4 w) = (s.cmdWrite w).reply (.write false) := by
  rw [State.transact, s.memWrite_cmd]

/-- After a BadCommand DONE is set, so irq is what the enable says (60_exceptions.md R206). -/
theorem State.badCmd_irq (s : State) : s.badCmd.irq = s.doneIe := by simp [State.irq]

/-- A word outside the table is rejected, for its RES bits or for its variant (30_encoding.md R85). -/
theorem exists_decode_eq_error {w : Word} (h : 10 ≤ w.toNat) : ∃ e, decode w = .error e := by
  by_cases hres : 16 ≤ w.toNat
  · exact ⟨_, decode_of_resBits hres⟩
  · exact ⟨_, decode_of_reservedVariant h (by omega)⟩

/-- Settles O39: the CMD write of a busy block is `dropCmd`, whatever the word is. -/
theorem cmdWriteWhileBusyOnlySetsOverrun : Obligations.CmdWriteWhileBusyOnlySetsOverrun := by
  intro s w busy
  rw [s.memWrite_cmd, s.cmdWrite_busy w busy]
  rfl

/-- Settles O40: the word decodes to an error, and the state after it is that of `badCmd`. -/
theorem illegalWordIsABadCommand : Obligations.IllegalWordIsABadCommand := by
  intro s w idle illegal
  obtain ⟨e, rejected⟩ := exists_decode_eq_error illegal
  exact ⟨s.badCmd, by rw [s.memWrite_cmd, s.cmdWrite_illegal w e idle rejected], rfl, s.badCmd_irq⟩

/-- Settles O41: the word decodes to its command, and the length turns it down. -/
theorem oversizedLengthIsABadCommand : Obligations.OversizedLengthIsABadCommand := by
  intro s i idle oversized
  exact ⟨s.badCmd, by rw [s.memWrite_cmd, s.cmdWrite_oversized _ i idle (decode_encode i) oversized], rfl, s.badCmd_irq⟩

/-- Settles O42: the word decodes to its command, and the CMD write is `accept`. -/
theorem legalWordIsAccepted : Obligations.LegalWordIsAccepted := by
  intro s i idle fits
  rw [s.memWrite_cmd, s.cmdWrite_accepted _ i idle (decode_encode i) fits]
  rfl

/-! ### What the host reads while a command runs (R177) -/

/-- Settles O43: the invariant clears the result fields of the register map (O29), and a busy block shuts its buffers
(O32). -/
theorem readsWhileBusyShowNoResult : Obligations.ReadsWhileBusyShowNoResult := by
  intro s inv busy
  obtain ⟨notDone, noCode, noOutput, noPosition, -⟩ := inv.busy_hides busy
  obtain ⟨id, version, cmd, inLen, outLen, statusFlag, statusWord, -, -, errPos, ibufSize, obufSize, -⟩ :=
    registerReadsFollowTheMap s
  refine ⟨statusFlag, ?status, noOutput ▸ outLen, noPosition ▸ errPos, inLen, id, version, cmd,
    s.memRead_register 0x018 (by decide) (by decide), ibufSize, obufSize, fun off n window => ?buffers⟩
  case status =>
    rw [statusWord, busy, notDone, noCode]
    simp [Nat.add_comm]
  case buffers => exact s.memRead_of_busError off n (s.target_buffer_of_busy off.toNat n busy window)

/-! ### One step, by who moves (R175, R181) -/

/-- When the Engine moves in a busy block, the step completes the command in LC (R175). -/
theorem step_of_engineMoves (s : State) (busy : s.status.busy = true) (next : s.EngineMoves) :
    step s = exec s.lc.instr s.advance := by
  rcases next with ha | ⟨rest, ha⟩ <;> simp [step, engineTurn, ha, busy]

/-- At the Engine's turn in a busy block, with the latched command by its name and the rest of the agenda. -/
theorem step_at_engine {s : State} {i : Instr} {rest : List Event} (busy : s.status.busy = true)
    (latched : s.lc.instr = i) (ha : s.agenda = .engine :: rest) :
    step s = exec i { s with agenda := rest, tick := s.tick + 1 } := by
  rw [step_of_engineMoves s busy (.inr ⟨rest, ha⟩), latched, State.advance, ha, List.tail_cons]

/-- At a host event the step is the transaction (00_scope.md R12). -/
theorem step_of_hostMoves (s : State) (tr : Transaction) (next : s.HostMoves tr) :
    step s = .next (s.advance.transact tr) := by
  obtain ⟨rest, ha⟩ := next
  simp [step, ha]

/-- Settles O46: the command in LC is the one its two fields name. -/
theorem engineTurnRunsTheLatchedCommand : Obligations.EngineTurnRunsTheLatchedCommand :=
  fun s rest busy next => step_of_engineMoves s busy (next.imp_right fun ha => ⟨rest, ha⟩)

/-- Settles O49: the idle Engine's turn only leaves the agenda. -/
theorem idleEngineHasNoStep : Obligations.IdleEngineHasNoStep := by
  intro s idle
  refine ⟨fun ha => ?noEvent, fun rest ha => ?turn⟩
  case noEvent => simp [step, ha, idle]
  case turn => simp [step, engineTurn, ha, idle, State.advance]

/-! ### From the word to the Engine's step (R174, R175) -/

/-- The command that an acceptance puts into LC is the accepted one. -/
theorem State.accept_lc_instr (i : Instr) (s : State) : (s.accept i).lc.instr = i := Instr.ofFields_op_variant i

/-- Settles O47: the first step is the acceptance and its reply, and the second completes the command in LC. -/
theorem writtenWordRunsAtTheEnginesTurn : Obligations.WrittenWordRunsAtTheEnginesTurn := by
  intro s w i rest idle fits decodes ha
  have accepts : step s = .next ((s.advance.accept i).reply (.write false)) := by
    rw [step_of_hostMoves s _ ⟨_, ha⟩, State.transact_cmd, s.advance.cmdWrite_accepted w i idle decodes fits]
  have after : ((s.advance.accept i).reply (.write false)).agenda = .engine :: rest := by simp [ha]
  exact ⟨_, accepts, rfl, rfl, rfl, rfl, step_at_engine rfl (s.advance.accept_lc_instr i) after⟩

/-- A table word of a command is placed as its acceptance, with the Engine to move first (log entry 2). -/
theorem State.withFetchWord_of_decodes (s : State) {nbits w : Nat} {i : Instr} (h : decodeTableWord nbits w = some i) :
    s.withFetchWord nbits w = { s.accept i with agenda := .engine :: s.agenda } := by
  simp only [State.withFetchWord, State.placeWord, h]

/-- Settles O48: the placed state is busy, and the Engine moves. -/
theorem placedWordRunsInTheNextStep : Obligations.PlacedWordRunsInTheNextStep := by
  intro s nbits w i decodes
  rw [s.withFetchWord_of_decodes decodes]
  exact ⟨rfl, step_at_engine rfl (s.accept_lc_instr i) rfl⟩

/-! ### The way to the completion (R180) -/

/-- t still runs the command of s, on the same input bytes. -/
structure State.StillRuns (s t : State) : Prop where
  busy : t.status.busy = true
  lc : t.lc = s.lc
  ibuf : t.ibuf = s.ibuf
  resets : t.resets = s.resets

theorem State.StillRuns.refl {s : State} (busy : s.status.busy = true) : s.StillRuns s := ⟨busy, rfl, rfl, rfl⟩

theorem State.StillRuns.trans {s t u : State} (h : s.StillRuns t) (h' : t.StillRuns u) : s.StillRuns u where
  busy := h'.busy
  lc := h'.lc.trans h.lc
  ibuf := h'.ibuf.trans h.ibuf
  resets := h'.resets.trans h.resets

theorem State.advance_stillRuns (s : State) (busy : s.status.busy = true) : s.StillRuns s.advance :=
  ⟨busy, rfl, rfl, rfl⟩

/-- Every byte read from IBUF is the same, written or not (20_memory.md R64, log entry 6). -/
theorem State.StillRuns.ibufByte {s t : State} (h : s.StillRuns t) : t.ibufByte = s.ibufByte :=
  s.ibufByte_congr t h.ibuf h.resets

/-- A busy block still runs its command after any transaction, and the agenda is as before (R178). Unlike
`State.transact_of_running` this asks nothing of DONE. -/
theorem State.transact_stillRuns (s : State) (tr : Transaction) (busy : s.status.busy = true) :
    s.StillRuns (s.transact tr) ∧ (s.transact tr).agenda = s.agenda := by
  obtain ⟨u, r, ht, hu⟩ := s.transact_cases tr
  rw [ht]
  rcases hu with rfl | ⟨w, -, rfl⟩ | ⟨v, -, rfl⟩ | ⟨v, -, rfl⟩ | ⟨v, -, rfl⟩ | ⟨off, n, v, -, idle, -⟩
  case inr.inl =>
    rw [s.cmdWrite_busy w busy]
    exact ⟨⟨busy, rfl, rfl, rfl⟩, rfl⟩
  case inr.inr.inr.inr.inr => simp [busy] at idle
  all_goals exact ⟨⟨busy, rfl, rfl, rfl⟩, rfl⟩

/-- A busy block with no reset to come gets to the Engine's move with its command still running: each event before that
move is a transaction. -/
theorem exists_run_engineMoves (s : State) (busy : s.status.busy = true) (noReset : s.NoReset) :
    ∃ k ≤ s.agenda.length, ∃ u, Sys2Proof.core.run k s = .next u ∧ s.StillRuns u ∧ u.EngineMoves := by
  induction ha : s.agenda generalizing s with
  | nil => exact ⟨0, Nat.zero_le _, s, rfl, .refl busy, .inl ha⟩
  | cons e rest ih =>
    cases e with
    | engine => exact ⟨0, Nat.zero_le _, s, rfl, .refl busy, .inr ⟨rest, ha⟩⟩
    | host tr =>
      obtain ⟨runs, kept⟩ := s.advance.transact_stillRuns tr busy
      have after : (s.advance.transact tr).agenda = rest := by rw [kept, State.advance_agenda, ha, List.tail_cons]
      have noReset' : (s.advance.transact tr).NoReset := fun e he => noReset e (by simp [ha, ← after, he])
      obtain ⟨k, hk, u, run, runs', next⟩ := ih _ runs.busy noReset' after
      refine ⟨k + 1, Nat.succ_le_succ hk, u, ?_, (s.advance_stillRuns busy).trans (runs.trans runs'), next⟩
      rw [core_run_succ s _ k (step_of_hostMoves s tr ⟨rest, ha⟩), run]
    | reset | resetDuring tr => exact absurd (noReset _ (ha ▸ List.mem_cons_self)) (by simp [Event.isReset])

/-- Settles O51: at the Engine's move the step is the completion of the command in LC. -/
theorem acceptedCommandIsCompleted : Obligations.AcceptedCommandIsCompleted := by
  intro s busy noReset
  obtain ⟨k, hk, u, run, runs, next⟩ := exists_run_engineMoves s busy noReset
  have completes : step u = exec (Instr.ofFields s.lc.op s.lc.variant) u.advance :=
    runs.lc ▸ step_of_engineMoves u runs.busy next
  exact ⟨k, hk, u, _, run, runs.busy, runs.lc, runs.ibuf, runs.ibufByte, completes, completes.trans (exec_eq _ _),
    State.run_busy _ _, State.run_done _ _⟩

end Sys2Proof.Machine
end

section
/-! PROOF. The interrupt (60_exceptions.md R206, R207): what each operation that touches DONE or DONE_IE makes of irq. -/

namespace Sys2Proof.Machine

/-! ### irq after each operation -/

/-- While DONE is clear no interrupt is pending, whatever the enable (R206). -/
theorem State.irq_of_not_done {s : State} (notDone : s.status.done = false) : s.irq = false := by
  simp [State.irq, notDone]

/-- A completion, with any result code, sets DONE and keeps the enable (R206). -/
theorem State.run_irq (i : Instr) (s : State) : (s.run i).irq = s.doneIe := by
  rw [State.irq, s.run_done i, (s.run_sameOutside i).doneIe, Bool.true_and]

/-- A dropped CMD write touches only OVR, which raises no interrupt (R207). -/
theorem State.dropCmd_irq (s : State) : s.dropCmd.irq = s.irq := rfl

/-- The acknowledgement: bit 1 of the written word clears DONE (R207). -/
theorem State.acknowledge_done_of_bit {v : Word} (s : State) (bit : v.getLsbD 1 = true) :
    (s.acknowledge v).status.done = false := by
  simp [bit]

/-! ### The register writes that move irq -/

/-- A write to STATUS is the acknowledgement, without a bus error (20_memory.md R58). -/
theorem State.memWrite_status (s : State) (v : Word) : s.memWrite 0x014 4 v = (s.acknowledge v, false) :=
  s.memWrite_register 0x014 v (by decide) (by decide)

/-- A write to IRQ_EN sets the enable to bit 0, without a bus error (R58). -/
theorem State.memWrite_irqEn (s : State) (v : Word) :
    s.memWrite 0x018 4 v = ({ s with doneIe := v.getLsbD 0 }, false) :=
  s.memWrite_register 0x018 v (by decide) (by decide)

/-- Settles O45: each write is the operation its register names, and irq after that operation is the lemma above. -/
theorem interruptFollowsDoneAndItsEnable : Obligations.InterruptFollowsDoneAndItsEnable := by
  refine ⟨fun s => rfl, fun i s => ⟨s.run i, exec_eq i s, s.run_irq i⟩, fun s v bit => ?acknowledged, fun s v => ?enable,
    fun s i idle fits => ?accepted, fun s w busy => ?dropped⟩
  case acknowledged =>
    have notDone := s.acknowledge_done_of_bit bit
    rw [s.memWrite_status]
    exact ⟨notDone, State.irq_of_not_done notDone⟩
  case enable =>
    rw [s.memWrite_irqEn]
    exact ⟨rfl, rfl⟩
  case accepted =>
    have notDone : (s.accept i).status.done = false := rfl
    rw [s.memWrite_cmd, s.cmdWrite_accepted _ i idle (decode_encode i) fits]
    exact ⟨notDone, State.irq_of_not_done notDone⟩
  case dropped => rw [s.memWrite_cmd, s.cmdWrite_busy w busy, s.dropCmd_irq]

end Sys2Proof.Machine
end

section
/-! PROOF. Reset (70_reset_and_hazards.md): what the host reads right after reset, and that both kinds of reset clear
the block in the same way and differ in the replies alone. -/

namespace Sys2Proof.Machine

/-! ### The state after reset (R231) -/

/-- Settles O58: the register map (O29) at the reset state; STATUS and IRQ_EN are read as whole words. -/
theorem resetRegistersReadAsSpecified : Obligations.ResetRegistersReadAsSpecified := by
  obtain ⟨id, version, cmd, inLen, outLen, -, -, -, -, errPos, ibufSize, obufSize, -⟩ :=
    registerReadsFollowTheMap State.reset
  have status := State.reset.memRead_register 0x014 (by decide) (by decide)
  have irqEn := State.reset.memRead_register 0x018 (by decide) (by decide)
  refine ⟨?registers, State.irq_of_not_done rfl⟩
  case registers =>
    simp only [List.map_cons, List.map_nil, id, version, cmd, inLen, outLen, status, irqEn, errPos, ibufSize, obufSize]
    rfl

/-! ### A reset step (R232, R233; R235 as log entry 10 reads it) -/

/-- At an event of either kind of reset the step is the reset, up to what the host got back (R235). -/
theorem exists_step_of_reset {s : State} {e : Event} {rest : List Event} (next : s.agenda = e :: rest)
    (reset : e.isReset = true) : ∃ rs : List Reply, step s = .next { s.advance.resetBlock with replies := rs } := by
  cases e with
  | reset => exact ⟨s.replies, by rw [step, next]; rfl⟩
  | resetDuring tr => exact ⟨tornReplies s.advance.tick tr ++ s.replies, by rw [step, next]; rfl⟩
  | host tr | engine => exact absurd reset Bool.false_ne_true

/-- Settles O59: the step is the reset by `exists_step_of_reset`, which writes each of these fields; of the agenda only
the event itself goes. -/
theorem resetStepRestoresTheResetValues : Obligations.ResetStepRestoresTheResetValues := by
  intro s e rest next reset
  obtain ⟨rs, resets⟩ := exists_step_of_reset next reset
  have agenda : s.advance.resetBlock.agenda = rest := by simp [next]
  exact ⟨_, resets, rfl, rfl, rfl, rfl, rfl, State.irq_of_not_done rfl, rfl, agenda, Memory.get?_nil, Memory.get?_nil,
    rfl⟩

end Sys2Proof.Machine
end

section
/-! PROOF. The step is total (93_implementation_defined.md, "No behaviour of this block is `stuck`"): whoever moves, it
gives a next state. -/

namespace Sys2Proof.Machine

/-- A busy Engine completes the command in LC, which `exec` does for every command; an idle one has no step of its own
(R175, R181). -/
theorem exists_step_of_engineMoves {s : State} (next : s.EngineMoves) : ∃ t, step s = .next t := by
  cases busy : s.status.busy with
  | true => exact ⟨_, (step_of_engineMoves s busy next).trans (exec_eq _ _)⟩
  | false =>
    obtain ⟨noEvent, turn⟩ := idleEngineHasNoStep s busy
    rcases next with ha | ⟨rest, ha⟩
    · exact ⟨_, noEvent ha⟩
    · exact ⟨_, turn rest ha⟩

/-- Settles O50, by who moves: the Engine, the host, or a reset of either kind. -/
theorem everyStepGivesANextState : Obligations.EveryStepGivesANextState := by
  intro s
  cases ha : s.agenda with
  | nil => exact exists_step_of_engineMoves (.inl ha)
  | cons e rest =>
    cases e with
    | engine => exact exists_step_of_engineMoves (.inr ⟨rest, ha⟩)
    | host tr => exact ⟨_, step_of_hostMoves s tr ⟨rest, ha⟩⟩
    | reset | resetDuring tr =>
      obtain ⟨rs, resets⟩ := exists_step_of_reset ha rfl
      exact ⟨_, resets⟩

end Sys2Proof.Machine
end
